-- ==== Sys2Proof/Config.lean ====
section
/-! DEFINITION. The parameters: those the source fixes (00_scope.md R7) and the one the spec leaves
open, `LAT(op)` (R8, 70_reset_and_hazards.md R211). The widths of R8 are the widths of the types in
Word.lean, Syntax.lean and Decode.lean. -/

namespace Sys2Proof.Config

/-- `BUF_LEN`, bytes of the serialized form (00_scope.md R7). -/
abbrev bufLen : Nat := 8

/-- The largest shift amount of the contract `0 <= n <= 64` (00_scope.md R7). -/
abbrev maxShift : Int := 64

/-- The modulus a rotate amount is reduced by (00_scope.md R7, R9). -/
abbrev rotateModulus : Int := 64

/-- `LAT(op) - 1`, which the spec leaves OPEN for each of the 256 opcode values
(70_reset_and_hazards.md R211, decision D21). No body: nothing can be proved of a value of it.
A function of the opcode alone, as R209 demands. Log entry 2; safe. -/
opaque openLatency : BitVec 8 → Nat

end Sys2Proof.Config
end

