-- ==== Sys2Proof/Word.lean ====
section
/-! DEFINITION. The words of the Int64 CORE: the value type `Int64Value` (10_state.md R20) and the
request and response words (30_encoding.md R60, R70). -/

namespace Sys2Proof

/-- One 16-bit limb (00_scope.md R7, R17). -/
abbrev Limb := BitVec 16

/-- One byte lane of the serialized form (20_memory.md R45). -/
abbrev Byte := BitVec 8

/-- The sole data type: four unsigned 16-bit limbs, `limb0` the most significant (10_state.md R20).
The limb range of R21 holds by the type, and R33: a value is its four limbs and nothing else. -/
structure Int64Value where
  limb0 : Limb
  limb1 : Limb
  limb2 : Limb
  limb3 : Limb
  deriving DecidableEq, Repr

/-- A request word, `req[167:0]` (30_encoding.md R60). -/
abbrev Request := BitVec 168

/-- A response word, `rsp[71:0]` (30_encoding.md R70). -/
abbrev ResponseWord := BitVec 72

end Sys2Proof
end

