-- ==== Sys2Proof/Machine/Operands.lean ====
section
/-! DEFINITION. The views of a value and the operand forms: `val` and `limbs` (00_scope.md R14), the
64-bit word and the eight bytes (10_state.md R22, 20_memory.md R44), the limb decomposition of a native
(40_construct_compare.md R105), and a limb by its index (43_bitwise.md R156). -/

namespace Sys2Proof

/-- `val(a)`, the semantic value (10_state.md R20). -/
def Int64Value.val (a : Int64Value) : Nat :=
  a.limb0.toNat * 2 ^ 48 + a.limb1.toNat * 2 ^ 32 + a.limb2.toNat * 2 ^ 16 + a.limb3.toNat

/-- `limbs(v)`, with `limb[i] = (v >> (16*(3-i))) & 0xFFFF` (00_scope.md R14). -/
def Int64Value.limbs (v : Nat) : Int64Value where
  limb0 := BitVec.ofNat 16 ((v >>> 48) &&& 0xFFFF)
  limb1 := BitVec.ofNat 16 ((v >>> 32) &&& 0xFFFF)
  limb2 := BitVec.ofNat 16 ((v >>> 16) &&& 0xFFFF)
  limb3 := BitVec.ofNat 16 (v &&& 0xFFFF)

/-- `zero = [0,0,0,0]` (00_scope.md R14). -/
def Int64Value.zero : Int64Value := ⟨0, 0, 0, 0⟩

/-- `one = [0,0,0,1]` (00_scope.md R14). -/
def Int64Value.one : Int64Value := ⟨0, 0, 0, 1⟩

/-- `allOnes64 = [0xFFFF,0xFFFF,0xFFFF,0xFFFF]` (00_scope.md R14). -/
def Int64Value.allOnes64 : Int64Value := ⟨0xFFFF, 0xFFFF, 0xFFFF, 0xFFFF⟩

/-- The bit-vector view `V = {limb[0], limb[1], limb[2], limb[3]}` (10_state.md R22). -/
def Int64Value.toBits (a : Int64Value) : BitVec 64 :=
  BitVec.cast (n := 16 + 16 + 16 + 16) rfl (a.limb0 ++ a.limb1 ++ a.limb2 ++ a.limb3)

/-- The value a 64-bit field carries (30_encoding.md R62, R70). -/
def Int64Value.ofBits (v : BitVec 64) : Int64Value where
  limb0 := v.extractLsb' 48 16
  limb1 := v.extractLsb' 32 16
  limb2 := v.extractLsb' 16 16
  limb3 := v.extractLsb' 0 16

/-- Byte `j` of the serialized form, `byte[j] = V[63-8*j : 56-8*j]` for `j = 0 .. 7`
(20_memory.md R44; the byte view of `RES`, 30_encoding.md R73). -/
def Int64Value.byte (a : Int64Value) (j : Fin 8) : Byte :=
  a.toBits.extractLsb' (56 - 8 * j.val) 8

/-- The value of eight big-endian bytes, `[D0*256 + D1, D2*256 + D3, D4*256 + D5, D6*256 + D7]`
(41_serialization.md R120). -/
def Int64Value.ofBytes (d0 d1 d2 d3 d4 d5 d6 d7 : Byte) : Int64Value where
  limb0 := BitVec.ofNat 16 (d0.toNat * 256 + d1.toNat)
  limb1 := BitVec.ofNat 16 (d2.toNat * 256 + d3.toNat)
  limb2 := BitVec.ofNat 16 (d4.toNat * 256 + d5.toNat)
  limb3 := BitVec.ofNat 16 (d6.toNat * 256 + d7.toNat)

/-- `limbs_of_native(n) = [0, 0, (n >> 16) & 0xFFFF, n & 0xFFFF]` (40_construct_compare.md R105), for
`n < 2^32`. DESIGN CHOICE, unsafe: of a larger `n`, which no request carries (U18), the bits above bit 31 are
dropped (log entry 18). -/
def limbsOfNative (n : Nat) : Int64Value where
  limb0 := 0
  limb1 := 0
  limb2 := BitVec.ofNat 16 ((n >>> 16) &&& 0xFFFF)
  limb3 := BitVec.ofNat 16 (n &&& 0xFFFF)

/-- `a[k]` with `a[k] = 0` for `k` outside `0 .. 3` (43_bitwise.md R156). -/
def Int64Value.limbAt (a : Int64Value) (k : Int) : Nat :=
  if k = 0 then a.limb0.toNat
  else if k = 1 then a.limb1.toNat
  else if k = 2 then a.limb2.toNat
  else if k = 3 then a.limb3.toNat
  else 0

/-- `a[k]` with index arithmetic modulo 4 (43_bitwise.md R156, rotates). -/
def Int64Value.limbMod (a : Int64Value) (k : Int) : Nat :=
  a.limbAt (k % 4)

end Sys2Proof
end

