-- ==== Sys2Proof/Syntax.lean ====
section
/-! DEFINITION. The instructions: one constructor per row of the opcode map (30_encoding.md R66),
with the operands its format reads (R61). Natives, raw limbs and lengths are the naturals `u32` reads,
amounts the integers `s32` reads (00_scope.md R13; U18 of 93_implementation_defined.md); WellFormed.lean
says which of them a request word can carry, and log entry 18 what the model does with the others. -/

namespace Sys2Proof

/-- The fourteen operations of the command set I64C-1 (30_encoding.md R66). -/
inductive Instr where
  /-- `FROML`, format L: raw limbs `X0 .. X3` (R101). -/
  | froml (x0 x1 x2 x3 : Nat)
  /-- `FROMN`, format N: a native (R102). -/
  | fromn (n : Nat)
  /-- `TOL`, format V (R103). -/
  | tol (a : Int64Value)
  /-- `CMPEQ`, format VV (R104). -/
  | cmpeq (a b : Int64Value)
  /-- `FROMB`, format Y: the buffer's length and byte lanes 0 to 7 (R120). -/
  | fromb (len : Nat) (d0 d1 d2 d3 d4 d5 d6 d7 : Byte)
  /-- `TOB`, format V (R121). -/
  | tob (a : Int64Value)
  /-- `ADD`, format VV (R131). -/
  | add (a b : Int64Value)
  /-- `ADDS`, format VN (R132). -/
  | adds (a : Int64Value) (n : Nat)
  /-- `MULS`, format VN (R133). -/
  | muls (a : Int64Value) (n : Nat)
  /-- `MUL`, format VV (R134). -/
  | mul (a b : Int64Value)
  /-- `ROTL`, format VS: a signed amount (R152). -/
  | rotl (a : Int64Value) (n : Int)
  /-- `ROTR`, format VS: a signed amount (R153). -/
  | rotr (a : Int64Value) (n : Int)
  /-- `SHL`, format VS: a signed amount (R154). -/
  | shl (a : Int64Value) (n : Int)
  /-- `SHR`, format VS: a signed amount (R155). -/
  | shr (a : Int64Value) (n : Int)
  deriving DecidableEq, Repr

end Sys2Proof
end

