-- ==== Sys2Proof/WellFormed.lean ====
section
/-! DEFINITION. Which instructions a request word can carry: natives, raw limbs and lengths below 2^32,
amounts in the range of `s32` (00_scope.md R8, R13; 30_encoding.md R63, R64, R65). Values and byte lanes
need no check (R62). -/

namespace Sys2Proof

/-- A natural that a 32-bit unsigned field holds: `0 .. 2^32-1` (`NATIVE_W`, `RAW_W`, `LEN_W`, 00_scope.md R8). -/
abbrev FitsU32 (n : Nat) : Prop := n < 2 ^ 32

/-- An integer that a 32-bit two's-complement field holds: `-2^31 .. 2^31-1` (`AMT_W`, 00_scope.md R8). -/
abbrev FitsS32 (n : Int) : Prop := -2 ^ 31 ≤ n ∧ n < 2 ^ 31

/-- Every operand fits the field that carries it. -/
def Instr.wellFormed : Instr → Bool
  | .froml x0 x1 x2 x3 => decide (FitsU32 x0 ∧ FitsU32 x1 ∧ FitsU32 x2 ∧ FitsU32 x3)
  | .fromn n => decide (FitsU32 n)
  | .tol _ => true
  | .cmpeq _ _ => true
  | .fromb len _ _ _ _ _ _ _ _ => decide (FitsU32 len)
  | .tob _ => true
  | .add _ _ => true
  | .adds _ n => decide (FitsU32 n)
  | .muls _ n => decide (FitsU32 n)
  | .mul _ _ => true
  | .rotl _ n => decide (FitsS32 n)
  | .rotr _ n => decide (FitsS32 n)
  | .shl _ n => decide (FitsS32 n)
  | .shr _ n => decide (FitsS32 n)

/-- The instruction is one that a request word can carry. -/
abbrev Instr.WellFormed (i : Instr) : Prop := i.wellFormed = true

end Sys2Proof
end

