-- ==== Sys2Proof/Decode.lean ====
section
/-! DEFINITION. The fields of a request word (30_encoding.md R60 to R65), the decoder (R66, R68, R74),
the encoder of the canonical form (R67), the canonical form of any word, and the transport order of the
words (20_memory.md R53). -/

namespace Sys2Proof

/-! ### Fields -/

/-- `OP = req[167:160]` (30_encoding.md R60). -/
def Request.op (q : Request) : BitVec 8 := q.extractLsb' 160 8

/-- `IMM = req[159:128]` (30_encoding.md R60). -/
def Request.imm (q : Request) : BitVec 32 := q.extractLsb' 128 32

/-- `A = req[127:64]` (30_encoding.md R60). -/
def Request.fieldA (q : Request) : BitVec 64 := q.extractLsb' 64 64

/-- `B = req[63:0]` (30_encoding.md R60). -/
def Request.fieldB (q : Request) : BitVec 64 := q.extractLsb' 0 64

/-- The value operand in field `A`: `a.limb[0] = req[127:112]` down to `a.limb[3] = req[79:64]` (30_encoding.md R62). -/
def Request.valueA (q : Request) : Int64Value := Int64Value.ofBits q.fieldA

/-- The value operand in field `B`: `b.limb[0] = req[63:48]` down to `b.limb[3] = req[15:0]` (30_encoding.md R62). -/
def Request.valueB (q : Request) : Int64Value := Int64Value.ofBits q.fieldB

/-- `u32(IMM)`: a native or a buffer length (30_encoding.md R63 (a), (c)). -/
def Request.native (q : Request) : Nat := q.imm.toNat

/-- `s32(IMM)`: an amount, not masked at decode (30_encoding.md R63 (b), 00_scope.md R13). -/
def Request.amount (q : Request) : Int := q.imm.toInt

/-- Raw limb `X<k>`: `X0 = req[127:96]`, `X1 = req[95:64]`, `X2 = req[63:32]`, `X3 = req[31:0]` (30_encoding.md R64). -/
def Request.rawLimb (q : Request) (k : Fin 4) : Nat := (q.extractLsb' (96 - 32 * k.val) 32).toNat

/-- Byte lane `D<j>`: `D0 = req[127:120]` down to `D7 = req[71:64]` (30_encoding.md R65). -/
def Request.lane (q : Request) (j : Fin 8) : Byte := q.extractLsb' (120 - 8 * j.val) 8

/-! ### Decoding -/

/-- Why a word or a byte string is no instruction. -/
inductive DecodeError where
  /-- `OP` is one of the 242 reserved values (30_encoding.md R68); the unit answers it with `IllegalOp`
  (60_exceptions.md R174), so this is the spec's own behaviour and safe. -/
  | reservedOpcode (op : BitVec 8)
  /-- A byte string that is not 21 bytes long is no request word (20_memory.md R53, 30_encoding.md R77).
  Raised by `decodeBytes` only; safe (log entry 12). -/
  | wrongLength (bytes : Nat)
  deriving DecidableEq, Repr

/-- The decoder: the opcode is the whole of `OP` (30_encoding.md R66), ignored fields are not looked at
(R67), reserved opcodes are refused by name (R68). -/
def decode (q : Request) : Except DecodeError Instr :=
  match q.op with
  | 0x10#8 => .ok (.froml (q.rawLimb 0) (q.rawLimb 1) (q.rawLimb 2) (q.rawLimb 3))
  | 0x11#8 => .ok (.fromn q.native)
  | 0x12#8 => .ok (.tol q.valueA)
  | 0x13#8 => .ok (.cmpeq q.valueA q.valueB)
  | 0x20#8 => .ok (.fromb q.native (q.lane 0) (q.lane 1) (q.lane 2) (q.lane 3) (q.lane 4) (q.lane 5) (q.lane 6) (q.lane 7))
  | 0x21#8 => .ok (.tob q.valueA)
  | 0x30#8 => .ok (.add q.valueA q.valueB)
  | 0x31#8 => .ok (.adds q.valueA q.native)
  | 0x32#8 => .ok (.muls q.valueA q.native)
  | 0x33#8 => .ok (.mul q.valueA q.valueB)
  | 0x40#8 => .ok (.rotl q.valueA q.amount)
  | 0x41#8 => .ok (.rotr q.valueA q.amount)
  | 0x42#8 => .ok (.shl q.valueA q.amount)
  | 0x43#8 => .ok (.shr q.valueA q.amount)
  | op => .error (.reservedOpcode op)

/-! ### Encoding -/

/-- The opcode of an instruction (30_encoding.md R66). -/
def Instr.opcode : Instr → BitVec 8
  | .froml _ _ _ _ => 0x10
  | .fromn _ => 0x11
  | .tol _ => 0x12
  | .cmpeq _ _ => 0x13
  | .fromb _ _ _ _ _ _ _ _ _ => 0x20
  | .tob _ => 0x21
  | .add _ _ => 0x30
  | .adds _ _ => 0x31
  | .muls _ _ => 0x32
  | .mul _ _ => 0x33
  | .rotl _ _ => 0x40
  | .rotr _ _ => 0x41
  | .shl _ _ => 0x42
  | .shr _ _ => 0x43

/-- The opcodes of 30_encoding.md R66, in its order; every other value is reserved (R68). -/
def definedOpcodes : List (BitVec 8) :=
  [0x10, 0x11, 0x12, 0x13, 0x20, 0x21, 0x30, 0x31, 0x32, 0x33, 0x40, 0x41, 0x42, 0x43]

/-- A request word from its four fields, `{OP, IMM, A, B}` (30_encoding.md R60). -/
def packRequest (op : BitVec 8) (imm : BitVec 32) (a b : BitVec 64) : Request :=
  BitVec.cast (n := 8 + 32 + 64 + 64) rfl (op ++ imm ++ a ++ b)

/-- Two raw limbs laid over a 64-bit field, `X0`, `X1` over `A` or `X2`, `X3` over `B` (30_encoding.md R64).
DESIGN CHOICE, unsafe: of a raw limb of 2^32 or more the low 32 bits are kept (U18; log entry 18). -/
def packRawLimbs (hi lo : Nat) : BitVec 64 :=
  BitVec.cast (n := 32 + 32) rfl (BitVec.ofNat 32 hi ++ BitVec.ofNat 32 lo)

/-- Eight byte lanes laid over field `A`, `D0` uppermost (30_encoding.md R65). -/
def packLanes (d0 d1 d2 d3 d4 d5 d6 d7 : Byte) : BitVec 64 :=
  BitVec.cast (n := 8 + 8 + 8 + 8 + 8 + 8 + 8 + 8) rfl (d0 ++ d1 ++ d2 ++ d3 ++ d4 ++ d5 ++ d6 ++ d7)

/-- The canonical request word: every field the format does not read is zero (30_encoding.md R67). DESIGN
CHOICE, unsafe: of an operand its field cannot carry, for which there is no word (U18), the low 32 bits of
the number, in two's complement for an amount, are kept (log entry 18). -/
def encode : Instr → Request
  | .froml x0 x1 x2 x3 => packRequest 0x10 0 (packRawLimbs x0 x1) (packRawLimbs x2 x3)
  | .fromn n => packRequest 0x11 (BitVec.ofNat 32 n) 0 0
  | .tol a => packRequest 0x12 0 a.toBits 0
  | .cmpeq a b => packRequest 0x13 0 a.toBits b.toBits
  | .fromb len d0 d1 d2 d3 d4 d5 d6 d7 => packRequest 0x20 (BitVec.ofNat 32 len) (packLanes d0 d1 d2 d3 d4 d5 d6 d7) 0
  | .tob a => packRequest 0x21 0 a.toBits 0
  | .add a b => packRequest 0x30 0 a.toBits b.toBits
  | .adds a n => packRequest 0x31 (BitVec.ofNat 32 n) a.toBits 0
  | .muls a n => packRequest 0x32 (BitVec.ofNat 32 n) a.toBits 0
  | .mul a b => packRequest 0x33 0 a.toBits b.toBits
  | .rotl a n => packRequest 0x40 (BitVec.ofInt 32 n) a.toBits 0
  | .rotr a n => packRequest 0x41 (BitVec.ofInt 32 n) a.toBits 0
  | .shl a n => packRequest 0x42 (BitVec.ofInt 32 n) a.toBits 0
  | .shr a n => packRequest 0x43 (BitVec.ofInt 32 n) a.toBits 0

/-! ### Formats and the canonical form of a word -/

/-- The formats of 30_encoding.md R61. -/
inductive Format where
  | VV | VN | VS | V | N | L | Y
  deriving DecidableEq, Repr

/-- The format of an opcode (30_encoding.md R61, R66); a reserved opcode has none. -/
def formatOf (op : BitVec 8) : Option Format :=
  match op with
  | 0x10#8 => some .L
  | 0x11#8 => some .N
  | 0x12#8 => some .V
  | 0x13#8 => some .VV
  | 0x20#8 => some .Y
  | 0x21#8 => some .V
  | 0x30#8 => some .VV
  | 0x31#8 => some .VN
  | 0x32#8 => some .VN
  | 0x33#8 => some .VV
  | 0x40#8 => some .VS
  | 0x41#8 => some .VS
  | 0x42#8 => some .VS
  | 0x43#8 => some .VS
  | _ => none

/-- Which of `IMM`, `A` and `B` a format reads (30_encoding.md R61); `L` overlays `X0 .. X3` on `A` and
`B`, `Y` the length on `IMM` and the lanes on `A` (R60). -/
def Format.reads : Format → Bool × Bool × Bool
  | .VV => (false, true, true)
  | .VN => (true, true, false)
  | .VS => (true, true, false)
  | .V => (false, true, false)
  | .N => (true, false, false)
  | .L => (false, true, true)
  | .Y => (true, true, false)

/-- The word with every ignored field set to zero (30_encoding.md R67). A reserved opcode's fields are
not looked at (R68), so all of them are ignored. -/
def Request.canonical (q : Request) : Request :=
  let (imm, a, b) := ((formatOf q.op).map Format.reads).getD (false, false, false)
  packRequest q.op (if imm then q.imm else 0) (if a then q.fieldA else 0) (if b then q.fieldB else 0)

/-! ### Transport order (20_memory.md R53) -/

/-- The `n` low bytes of a word, most significant first. -/
def bytesOfWord {m : Nat} (n : Nat) (w : BitVec m) : List Byte :=
  (List.range n).map fun k => w.extractLsb' (8 * (n - 1 - k)) 8

/-- The natural of a byte string, most significant byte first. -/
def natOfBytes (bytes : List Byte) : Nat :=
  bytes.foldl (fun acc b => acc * 256 + b.toNat) 0

/-- The 21 transport bytes of a request word, byte 0 the opcode: byte `k` is `req[167-8*k : 160-8*k]`. -/
def requestBytes (q : Request) : List Byte := bytesOfWord 21 q

/-- The request word that 21 transport bytes carry (20_memory.md R53). `decodeBytes` reads no other length
through it (log entry 12); by itself it takes the low 168 bits of the big-endian number of any byte string
(log entry 17). -/
def requestOfBytes (bytes : List Byte) : Request := BitVec.ofNat 168 (natOfBytes bytes)

/-- Decoding any byte string: 21 bytes are a request word, any other number is refused by name. -/
def decodeBytes (bytes : List Byte) : Except DecodeError Instr :=
  if bytes.length = 21 then decode (requestOfBytes bytes) else .error (.wrongLength bytes.length)

/-! ### The opcode table's numbering -/

/-- The request word whose bits are `w`, numbered as spec/opcode_table.json numbers them: bit `k` of `w`
is `req[k]`. A row has all 168 bits; a shorter `nbits` leaves the bits above it zero. -/
def requestOfTable (nbits w : Nat) : Request := BitVec.ofNat 168 (w % 2 ^ nbits)

/-- The instruction the decoder reads from the word `w` of the opcode table, laid out as the 21
transport bytes (20_memory.md R53) and given to `decodeBytes`. -/
def decodeTableWord (nbits w : Nat) : Option Instr :=
  match decodeBytes (requestBytes (requestOfTable nbits w)) with
  | .ok i => some i
  | .error _ => none

end Sys2Proof
end

