-- ==== Sys2Proof/Machine/State.lean ====
section
/-! DEFINITION. The machine's state as plain data, its value after reset, and the reasons a run can stop.
The unit's whole architectural state is `SLOT` (10_state.md R24); beside it stand the transaction in
progress as the ports time and show it (20_memory.md R43), and the host's side of the two ports. -/

namespace Sys2Proof.Machine

/-- The error conditions (60_exceptions.md R170): the three of the source's taxonomy and `IllegalOp`. -/
inductive Condition where
  /-- Code 0x01, raised by `FROMB` when the length is not 8 (60_exceptions.md R171). -/
  | invalidLength
  /-- Code 0x02, raised by `FROML` when a raw limb exceeds 0xFFFF (60_exceptions.md R172). -/
  | invalidLimb
  /-- Code 0x03, raised by `SHL` and `SHR` when the amount is outside `0 .. 64` (60_exceptions.md R173). -/
  | invalidAmount
  /-- Code 0x04, raised by a reserved opcode (60_exceptions.md R174). -/
  | illegalOp
  deriving DecidableEq, Repr

/-- What a transaction ends in (60_exceptions.md R170): a result, or a condition with no result attached
(30_encoding.md R72). -/
inductive Response where
  /-- `respond_ok(v)` (00_scope.md R15). -/
  | ok (v : Int64Value)
  /-- `raise <Condition>` (00_scope.md R15). -/
  | raised (c : Condition)
  deriving DecidableEq, Repr

/-- `SLOT`, the unit's whole architectural state (10_state.md R24). -/
inductive Slot where
  /-- No transaction is in flight. -/
  | empty
  /-- Request `q` has been accepted and its response not yet taken. -/
  | busy (q : Request)
  deriving DecidableEq, Repr

/-- The levels of the input pins at one rising clock edge (20_memory.md R41). -/
structure PortInputs where
  /-- `rst`, synchronous, active high (70_reset_and_hazards.md R200). -/
  rst : Bool
  /-- `req_valid`: the host presents a request word on `req`. -/
  reqValid : Bool
  /-- `req[167:0]`. -/
  req : Request
  /-- `rsp_ready`: the host takes the response word. -/
  rspReady : Bool
  deriving DecidableEq, Repr

/-- The state between two rising clock edges. `slot`, `wait` and `out` are the unit's; `inputs` and
`transcript` are the host's side of the ports; `latGiven` is the parameter of 70_reset_and_hazards.md R211. -/
structure State where
  /-- `SLOT` (10_state.md R24). -/
  slot : Slot
  /-- Clock edges left until the response of the request in `slot` becomes valid (20_memory.md R43); 0 when
  it is valid or when nothing is in flight. Log entry 3. -/
  wait : Nat
  /-- The response driven on `rsp` with `rsp_valid = 1`; `none` is `rsp_valid = 0`, when `rsp` has no
  specified value (20_memory.md R41, R43; U5). -/
  out : Option Response
  /-- `LAT` as an argument of the machine (70_reset_and_hazards.md R211): entry `k` is `LAT(k) - 1`; an
  opcode with no entry has the open latency `Config.openLatency`. No step writes it. Log entry 2. -/
  latGiven : List Nat
  /-- What the host drives on the input pins at the coming rising edges, the next one first; after the
  last one it drives nothing. Log entry 4. -/
  inputs : List PortInputs
  /-- The host's record of its completed transactions, oldest first: each request with the response taken
  for it (20_memory.md R49). The unit keeps none of it (10_state.md R24). Log entry 5. -/
  transcript : List (Request × Response)
  deriving DecidableEq, Repr

/-- Why a RUN stops. The unit itself never stops: no instruction's meaning and no clock edge answers with
a fault (30_encoding.md R69, 60_exceptions.md R176). -/
inductive Fault where
  /-- Line number `line` of a host's command script was answered with `c` in place of a result, and the
  script stops there (30_encoding.md R75, 60_exceptions.md R180, 70_reset_and_hazards.md R213). Raised by
  `runScript` only; safe: it is the outcome the spec gives the run. -/
  | condition (c : Condition) (line : Nat)
  deriving DecidableEq, Repr

/-- What the model gives no meaning. None is raised by an instruction or by a clock edge. -/
inductive Refusal where
  /-- An instruction without a meaning yet. Raised by no arm of `exec`: all fourteen have their meaning. -/
  | notModelled (mnemonic : String)
  /-- A command script uses a name that no earlier line binds; 30_encoding.md R75 gives it no meaning.
  Raised by `runScript` only; safe (log entry 9). -/
  | unboundName (name : String)
  /-- A command script binds a name a second time; 30_encoding.md R75: a name is never rebound.
  Raised by `runScript` only; safe (log entry 9). -/
  | reboundName (name : String)
  /-- A command script holds a literal that its field cannot carry (00_scope.md R8). Raised by
  `runScript` only; safe (log entry 9). -/
  | literalOutOfRange (name : String)
  deriving DecidableEq, Repr

/-- The machine right after reset: `SLOT = EMPTY`, `req_ready = 1`, `rsp_valid = 0`
(10_state.md R32, 70_reset_and_hazards.md R201); the model's own fields as log entries 2 to 5 say. -/
def State.reset : State where
  slot := .empty
  wait := 0
  out := none
  latGiven := []
  inputs := []
  transcript := []

end Sys2Proof.Machine
end

