-- ==== Sys2Proof/Machine/Flags.lean ====
section
/-! DEFINITION. The unit has no flags (10_state.md R27): no operation writes or reads one. What an
operation reports beside its result is the status code of its response word, which is here: the codes
(30_encoding.md R71), the response word (R70, R72), and how a host reads it back. -/

namespace Sys2Proof.Machine

/-- `code(C)` (30_encoding.md R71). -/
def Condition.code : Condition → BitVec 8
  | .invalidLength => 0x01
  | .invalidLimb => 0x02
  | .invalidAmount => 0x03
  | .illegalOp => 0x04

/-- `ST`, the status field of a response (30_encoding.md R71). -/
def Response.status : Response → BitVec 8
  | .ok _ => 0x00
  | .raised c => c.code

/-- `RES`, the result field: the value's bits, or zeros that are no value (30_encoding.md R70, R72). -/
def Response.resultBits : Response → BitVec 64
  | .ok v => v.toBits
  | .raised _ => 0

/-- The response word `{ST, RES}` (30_encoding.md R70). -/
def Response.word (r : Response) : ResponseWord :=
  BitVec.cast (n := 8 + 64) rfl (r.status ++ r.resultBits)

/-- `ST = rsp[71:64]` (30_encoding.md R70). -/
def ResponseWord.status (w : ResponseWord) : BitVec 8 := w.extractLsb' 64 8

/-- `RES = rsp[63:0]` (30_encoding.md R70). -/
def ResponseWord.resultBits (w : ResponseWord) : BitVec 64 := w.extractLsb' 0 64

/-- How a host reads a response word: a result when `ST = OK`, a condition with no result attached when it
is one of the four codes (30_encoding.md R72), nothing when this unit never produces the code (R71, U13). Log entry 8. -/
def responseOfWord (w : ResponseWord) : Option Response :=
  match ResponseWord.status w with
  | 0x00#8 => some (.ok (Int64Value.ofBits (ResponseWord.resultBits w)))
  | 0x01#8 => some (.raised .invalidLength)
  | 0x02#8 => some (.raised .invalidLimb)
  | 0x03#8 => some (.raised .invalidAmount)
  | 0x04#8 => some (.raised .illegalOp)
  | _ => none

end Sys2Proof.Machine
end

