-- ==== Sys2Proof/Machine/Ops.lean ====
section
/-! DEFINITION. The named operations over the state: the ports (20_memory.md R41 to R43), ending a
transaction with a result, TAKING A CONDITION (60_exceptions.md R176), reset (70_reset_and_hazards.md R200)
and the latency parameter (R211). There is no return from a condition (60_exceptions.md R177): nothing was
entered and nothing was saved. -/

namespace Sys2Proof.Machine

/-! ### Latency -/

/-- `LAT(op)`, at least 1, a function of the opcode alone (70_reset_and_hazards.md R209, R211). -/
def latency (given : List Nat) (op : BitVec 8) : Nat :=
  (given[op.toNat]?).getD (Config.openLatency op) + 1

/-! ### Output pins (20_memory.md R41) -/

/-- `req_ready`, 1 exactly when `SLOT = EMPTY`. -/
def State.reqReady (s : State) : Bool := s.slot == .empty

/-- `rsp_valid`. -/
def State.rspValid (s : State) : Bool := s.out.isSome

/-- `rsp`, which has a value only while `rsp_valid = 1` (U5; log entry 7). -/
def State.rsp (s : State) : Option ResponseWord := s.out.map Response.word

/-! ### Input pins (20_memory.md R41) -/

/-- A host that drives nothing: no reset, no request, not ready for a response. Log entry 4. -/
def PortInputs.idle : PortInputs where
  rst := false
  reqValid := false
  req := 0
  rspReady := false

/-- The levels sampled at the next rising edge. -/
def State.sampled (s : State) : PortInputs := s.inputs.headD .idle

/-- The state with that edge's levels consumed. -/
def State.afterSample (s : State) : State := { s with inputs := s.inputs.tail }

/-! ### The unit's moves -/

/-- Request transfer: the captured word goes into the slot, and the response becomes valid `LAT(q.OP)`
edges later (20_memory.md R42, R43). -/
def State.accept (s : State) (q : Request) : State :=
  { s with slot := .busy q, wait := latency s.latGiven q.op, out := none }

/-- One more edge of the latency has passed. -/
def State.countDown (s : State) : State := { s with wait := s.wait - 1 }

/-- The response becomes valid: `rsp` is driven and `rsp_valid` is 1 (20_memory.md R43). -/
def State.drive (s : State) (r : Response) : State := { s with out := some r, wait := 0 }

/-- Response transfer: the host has the response, the unit forgets the request (20_memory.md R43). -/
def State.release (s : State) (q : Request) (r : Response) : State :=
  { s with slot := .empty, wait := 0, out := none, transcript := s.transcript ++ [(q, r)] }

/-- Reset: `SLOT <- EMPTY`, `rsp_valid <- 0`, whatever the slot held, with no transfer
(70_reset_and_hazards.md R200, R202). The host's side is no part of the unit and keeps what it has (R201). -/
def State.resetUnit (s : State) : State := { s with slot := .empty, wait := 0, out := none }

/-! ### Ending a transaction (00_scope.md R15) -/

/-- `respond_ok(v)`: the response `{OK, v}` is driven. -/
def respondOk (v : Int64Value) (s : State) : Host.Outcome State Fault Refusal :=
  .next (s.drive (.ok v))

/-- `raise <Condition>`, the unit's only analogue of taking an exception: the error response is driven
exactly as a successful one, nothing is saved and nothing else changes (60_exceptions.md R176). Log entry 6. -/
def raise (c : Condition) (s : State) : Host.Outcome State Fault Refusal :=
  .next (s.drive (.raised c))

/-- Every operation ends in exactly one `respond_ok` or one `raise` (30_encoding.md R74). -/
def finish (r : Response) (s : State) : Host.Outcome State Fault Refusal :=
  match r with
  | .ok v => respondOk v s
  | .raised c => raise c s

end Sys2Proof.Machine
end

