-- ==== Sys2Proof/Machine/Arith.lean ====
section
/-! DEFINITION. Arithmetic: the limb adder (`ADD`, `ADDS`) and the multiplier (`MULS`, `MUL`), each the
limb recurrence of the source (42_arithmetic.md R131 to R134). The recurrences run on unbounded naturals
(00_scope.md R12), so the internal widths of R135 are bounds to prove, not sizes that cut a value off. -/

namespace Sys2Proof.Machine

/-- Four quantities, one per limb position: `c0` of weight 1 (limb 3) up to `c3` of weight 2^48 (limb 0). -/
structure Columns where
  c0 : Nat
  c1 : Nat
  c2 : Nat
  c3 : Nat
  deriving DecidableEq, Repr

/-- The accumulators of the carry recurrence the three datapaths share: from the least significant column
up, `acc = column + carry` and the next carry is `acc div 0x10000` (42_arithmetic.md R131, R133, R134). -/
def Columns.accumulate (c : Columns) : Columns :=
  let acc0 := c.c0
  let acc1 := c.c1 + acc0 / 0x10000
  let acc2 := c.c2 + acc1 / 0x10000
  let acc3 := c.c3 + acc2 / 0x10000
  ⟨acc0, acc1, acc2, acc3⟩

/-- The result limbs, `acc mod 0x10000`; the carry out of limb 0 is dropped (42_arithmetic.md R131). -/
def Columns.value (c : Columns) : Int64Value where
  limb0 := BitVec.ofNat 16 (c.accumulate.c3 % 0x10000)
  limb1 := BitVec.ofNat 16 (c.accumulate.c2 % 0x10000)
  limb2 := BitVec.ofNat 16 (c.accumulate.c1 % 0x10000)
  limb3 := BitVec.ofNat 16 (c.accumulate.c0 % 0x10000)

/-- The limb sums of `ADD`, `a.limb[i] + b.limb[i]` (42_arithmetic.md R131). -/
def addColumns (a b : Int64Value) : Columns where
  c0 := a.limb3.toNat + b.limb3.toNat
  c1 := a.limb2.toNat + b.limb2.toNat
  c2 := a.limb1.toNat + b.limb1.toNat
  c3 := a.limb0.toNat + b.limb0.toNat

/-- The limb products of `MULS`, `a.limb[i] * n` (42_arithmetic.md R133), for `n < 2^32`. DESIGN CHOICE,
unsafe: by a larger `n`, which no request carries (U18), the whole `n` multiplies (log entry 18). -/
def mulsColumns (a : Int64Value) (n : Nat) : Columns where
  c0 := a.limb3.toNat * n
  c1 := a.limb2.toNat * n
  c2 := a.limb1.toNat * n
  c3 := a.limb0.toNat * n

/-- The four columns of `MUL`: the ten partial products of weight below 2^64 (42_arithmetic.md R134). -/
def mulColumns (a b : Int64Value) : Columns where
  c0 := a.limb3.toNat * b.limb3.toNat
  c1 := a.limb2.toNat * b.limb3.toNat + a.limb3.toNat * b.limb2.toNat
  c2 := a.limb1.toNat * b.limb3.toNat + a.limb2.toNat * b.limb2.toNat + a.limb3.toNat * b.limb1.toNat
  c3 := a.limb0.toNat * b.limb3.toNat + a.limb1.toNat * b.limb2.toNat + a.limb2.toNat * b.limb1.toNat
    + a.limb3.toNat * b.limb0.toNat

/-- `ADD` on values (42_arithmetic.md R131). -/
def addValue (a b : Int64Value) : Int64Value := (addColumns a b).value

/-- `ADDS` on values: the same adder on the native's limbs (42_arithmetic.md R132). -/
def addsValue (a : Int64Value) (n : Nat) : Int64Value := addValue a (limbsOfNative n)

/-- `MULS` on values (42_arithmetic.md R133). -/
def mulsValue (a : Int64Value) (n : Nat) : Int64Value := (mulsColumns a n).value

/-- `MUL` on values (42_arithmetic.md R134). -/
def mulValue (a b : Int64Value) : Int64Value := (mulColumns a b).value

/-- The response of `ADD`: never a condition (42_arithmetic.md R130). -/
def addResponse (a b : Int64Value) : Response := .ok (addValue a b)

/-- The response of `ADDS`: never a condition (42_arithmetic.md R130). -/
def addsResponse (a : Int64Value) (n : Nat) : Response := .ok (addsValue a n)

/-- The response of `MULS`: never a condition (42_arithmetic.md R130). -/
def mulsResponse (a : Int64Value) (n : Nat) : Response := .ok (mulsValue a n)

/-- The response of `MUL`: never a condition (42_arithmetic.md R130). -/
def mulResponse (a b : Int64Value) : Response := .ok (mulValue a b)

/-- The meaning of `ADD`. -/
def execAdd (a b : Int64Value) (s : State) : Host.Outcome State Fault Refusal :=
  finish (addResponse a b) s

/-- The meaning of `ADDS`. -/
def execAdds (a : Int64Value) (n : Nat) (s : State) : Host.Outcome State Fault Refusal :=
  finish (addsResponse a n) s

/-- The meaning of `MULS`. -/
def execMuls (a : Int64Value) (n : Nat) (s : State) : Host.Outcome State Fault Refusal :=
  finish (mulsResponse a n) s

/-- The meaning of `MUL`. -/
def execMul (a b : Int64Value) (s : State) : Host.Outcome State Fault Refusal :=
  finish (mulResponse a b) s

end Sys2Proof.Machine
end

