-- ==== Sys2Proof/Machine/Bitwise.lean ====
section
/-! DEFINITION. The barrel shifter and rotator: `ROTL`, `ROTR`, `SHL`, `SHR` by their word-level
definitions, which are the normative ones (43_bitwise.md R150 to R155), and beside them the limb-level
structure of the hardware (R156). -/

namespace Sys2Proof.Machine

/-- The reduced rotate amount, `n mod 64` with the floor convention, so `0 .. 63` for every `n`
(43_bitwise.md R151, 00_scope.md R12; 90_conflicts.md C1). DESIGN CHOICE, unsafe: an amount outside the range
of `s32`, which no request carries (U18), is reduced the same way (log entry 18). -/
def rotateAmount (n : Int) : Nat := (n % Config.rotateModulus).toNat

/-- `ROTL` on the word, with the explicit case of amount 0 (43_bitwise.md R152). -/
def rotlValue (a : Int64Value) (n : Int) : Int64Value :=
  let r := rotateAmount n
  if r = 0 then a else .limbs (((a.val <<< r) % 2 ^ 64) ||| (a.val >>> (64 - r)))

/-- `ROTR` on the word, with the explicit case of amount 0 (43_bitwise.md R153). -/
def rotrValue (a : Int64Value) (n : Int) : Int64Value :=
  let r := rotateAmount n
  if r = 0 then a else .limbs ((a.val >>> r) ||| ((a.val <<< (64 - r)) % 2 ^ 64))

/-- The response of `ROTL`: never a condition (43_bitwise.md R151). -/
def rotlResponse (a : Int64Value) (n : Int) : Response := .ok (rotlValue a n)

/-- The response of `ROTR`: never a condition (43_bitwise.md R151). -/
def rotrResponse (a : Int64Value) (n : Int) : Response := .ok (rotrValue a n)

/-- The response of `SHL`: the amount is checked and never masked (43_bitwise.md R154; 90_conflicts.md C2).
DESIGN CHOICE, unsafe: an amount outside the range of `s32`, which no request carries (U18), is invalid too
(log entry 18). -/
def shlResponse (a : Int64Value) (n : Int) : Response :=
  if n < 0 ∨ Config.maxShift < n then .raised .invalidAmount
  else if n = Config.maxShift then .ok .zero
  else .ok (.limbs ((a.val <<< n.toNat) % 2 ^ 64))

/-- The response of `SHR`: logical, never arithmetic; the range of `SHL` (43_bitwise.md R155), and the same
choice beyond `s32` (log entry 18). -/
def shrResponse (a : Int64Value) (n : Int) : Response :=
  if n < 0 ∨ Config.maxShift < n then .raised .invalidAmount
  else if n = Config.maxShift then .ok .zero
  else .ok (.limbs (a.val >>> n.toNat))

/-- The meaning of `ROTL`. -/
def execRotl (a : Int64Value) (n : Int) (s : State) : Host.Outcome State Fault Refusal :=
  finish (rotlResponse a n) s

/-- The meaning of `ROTR`. -/
def execRotr (a : Int64Value) (n : Int) (s : State) : Host.Outcome State Fault Refusal :=
  finish (rotrResponse a n) s

/-- The meaning of `SHL`. -/
def execShl (a : Int64Value) (n : Int) (s : State) : Host.Outcome State Fault Refusal :=
  finish (shlResponse a n) s

/-- The meaning of `SHR`. -/
def execShr (a : Int64Value) (n : Int) (s : State) : Host.Outcome State Fault Refusal :=
  finish (shrResponse a n) s

/-! ### Limb-level structure (43_bitwise.md R156)

`m` in `0 .. 63` splits as `q = m div 16` whole limbs and `s = m mod 16` bits. `src k` is the source limb
`a[k]`: by `limbMod` for rotates, by `limbAt` for shifts. -/

/-- Result limb `i` of a move to the left by `m`. -/
def leftLimb (src : Int → Nat) (m : Nat) (i : Int) : Limb :=
  let q : Int := (m / 16 : Nat)
  let s := m % 16
  if s = 0 then BitVec.ofNat 16 (src (i + q))
  else BitVec.ofNat 16 (((src (i + q) <<< s) ||| (src (i + q + 1) >>> (16 - s))) &&& 0xFFFF)

/-- Result limb `i` of a move to the right by `m`. -/
def rightLimb (src : Int → Nat) (m : Nat) (i : Int) : Limb :=
  let q : Int := (m / 16 : Nat)
  let s := m % 16
  if s = 0 then BitVec.ofNat 16 (src (i - q))
  else BitVec.ofNat 16 (((src (i - q) >>> s) ||| (src (i - q - 1) <<< (16 - s))) &&& 0xFFFF)

/-- `ROTL` on the limb array. -/
def rotlLimbs (a : Int64Value) (m : Nat) : Int64Value :=
  ⟨leftLimb a.limbMod m 0, leftLimb a.limbMod m 1, leftLimb a.limbMod m 2, leftLimb a.limbMod m 3⟩

/-- `SHL` on the limb array. -/
def shlLimbs (a : Int64Value) (m : Nat) : Int64Value :=
  ⟨leftLimb a.limbAt m 0, leftLimb a.limbAt m 1, leftLimb a.limbAt m 2, leftLimb a.limbAt m 3⟩

/-- `ROTR` on the limb array. -/
def rotrLimbs (a : Int64Value) (m : Nat) : Int64Value :=
  ⟨rightLimb a.limbMod m 0, rightLimb a.limbMod m 1, rightLimb a.limbMod m 2, rightLimb a.limbMod m 3⟩

/-- `SHR` on the limb array. -/
def shrLimbs (a : Int64Value) (m : Nat) : Int64Value :=
  ⟨rightLimb a.limbAt m 0, rightLimb a.limbAt m 1, rightLimb a.limbAt m 2, rightLimb a.limbAt m 3⟩

end Sys2Proof.Machine
end

