-- ==== Sys2Proof/Machine/Construct.lean ====
section
/-! DEFINITION. Construction, extraction and comparison: `FROML`, `FROMN`, `TOL`, `CMPEQ`
(40_construct_compare.md R100 to R105). -/

namespace Sys2Proof.Machine

/-- A raw limb out of range: above 0xFFFF (40_construct_compare.md R101). DESIGN CHOICE, unsafe: one of 2^32 or
more, which no request carries (U18), is out of range too (log entry 18). -/
def limbTooLarge (x : Nat) : Bool := decide (0xFFFF < x)

/-- `FROML`: never truncates a raw limb (40_construct_compare.md R101; 90_conflicts.md C3). -/
def fromlResponse (x0 x1 x2 x3 : Nat) : Response :=
  if limbTooLarge x0 || limbTooLarge x1 || limbTooLarge x2 || limbTooLarge x3 then .raised .invalidLimb
  else .ok ⟨BitVec.ofNat 16 x0, BitVec.ofNat 16 x1, BitVec.ofNat 16 x2, BitVec.ofNat 16 x3⟩

/-- `FROMN`: the native's limbs, high limbs zero (40_construct_compare.md R102). -/
def fromnResponse (n : Nat) : Response := .ok (limbsOfNative n)

/-- `TOL`: the identity on the 64 bits, read as limbs (40_construct_compare.md R103). -/
def tolResponse (a : Int64Value) : Response := .ok a

/-- `CMPEQ`: `one` if all four limbs match pairwise, else `zero` (40_construct_compare.md R104). -/
def cmpeqResponse (a b : Int64Value) : Response :=
  if a.limb0 = b.limb0 ∧ a.limb1 = b.limb1 ∧ a.limb2 = b.limb2 ∧ a.limb3 = b.limb3 then .ok .one
  else .ok .zero

/-- The meaning of `FROML`. -/
def execFroml (x0 x1 x2 x3 : Nat) (s : State) : Host.Outcome State Fault Refusal :=
  finish (fromlResponse x0 x1 x2 x3) s

/-- The meaning of `FROMN`. -/
def execFromn (n : Nat) (s : State) : Host.Outcome State Fault Refusal :=
  finish (fromnResponse n) s

/-- The meaning of `TOL`. -/
def execTol (a : Int64Value) (s : State) : Host.Outcome State Fault Refusal :=
  finish (tolResponse a) s

/-- The meaning of `CMPEQ`. -/
def execCmpeq (a b : Int64Value) (s : State) : Host.Outcome State Fault Refusal :=
  finish (cmpeqResponse a b) s

end Sys2Proof.Machine
end

