-- ==== Sys2Proof/Machine/Serialize.lean ====
section
/-! DEFINITION. Serialization: `FROMB`, `TOB` (41_serialization.md R120, R121). -/

namespace Sys2Proof.Machine

/-- `FROMB`: the length is checked first, and the lanes are not read when it is wrong
(41_serialization.md R120). DESIGN CHOICE, unsafe: a length of 2^32 or more, which no request carries (U18),
is wrong too (log entry 18). -/
def frombResponse (len : Nat) (d0 d1 d2 d3 d4 d5 d6 d7 : Byte) : Response :=
  if len ≠ Config.bufLen then .raised .invalidLength
  else .ok (Int64Value.ofBytes d0 d1 d2 d3 d4 d5 d6 d7)

/-- `TOB`: the identity on the 64 bits, read as bytes (41_serialization.md R121). -/
def tobResponse (a : Int64Value) : Response := .ok a

/-- The meaning of `FROMB`. -/
def execFromb (len : Nat) (d0 d1 d2 d3 d4 d5 d6 d7 : Byte) (s : State) : Host.Outcome State Fault Refusal :=
  finish (frombResponse len d0 d1 d2 d3 d4 d5 d6 d7) s

/-- The meaning of `TOB`. -/
def execTob (a : Int64Value) (s : State) : Host.Outcome State Fault Refusal :=
  finish (tobResponse a) s

end Sys2Proof.Machine
end

