-- ==== Sys2Proof/Machine/Dispatch.lean ====
section
/-! DEFINITION. One arm per instruction (30_encoding.md R74): its meaning on the state in which the
response becomes valid. `exec` is total on `Instr`: an instruction whose operand its field cannot carry, which
no request decodes to (U18), runs by the same meaning (log entry 18; DESIGN CHOICE, unsafe). -/

namespace Sys2Proof.Machine

def exec (i : Instr) (s : State) : Host.Outcome State Fault Refusal :=
  match i with
  | .froml x0 x1 x2 x3 => Sys2Proof.Machine.execFroml x0 x1 x2 x3 s
  | .fromn n => Sys2Proof.Machine.execFromn n s
  | .tol a => Sys2Proof.Machine.execTol a s
  | .cmpeq a b => Sys2Proof.Machine.execCmpeq a b s
  | .fromb len d0 d1 d2 d3 d4 d5 d6 d7 => Sys2Proof.Machine.execFromb len d0 d1 d2 d3 d4 d5 d6 d7 s
  | .tob a => Sys2Proof.Machine.execTob a s
  | .add a b => Sys2Proof.Machine.execAdd a b s
  | .adds a n => Sys2Proof.Machine.execAdds a n s
  | .muls a n => Sys2Proof.Machine.execMuls a n s
  | .mul a b => Sys2Proof.Machine.execMul a b s
  | .rotl a n => Sys2Proof.Machine.execRotl a n s
  | .rotr a n => Sys2Proof.Machine.execRotr a n s
  | .shl a n => Sys2Proof.Machine.execShl a n s
  | .shr a n => Sys2Proof.Machine.execShr a n s

end Sys2Proof.Machine
end

