-- ==== Sys2Proof/Machine/Clock.lean ====
section
/-! DEFINITION. What one rising clock edge does (20_memory.md R42, R43; 70_reset_and_hazards.md R200):
reset first, then the transfer or the wait that the slot and the pins call for. -/

namespace Sys2Proof.Machine

/-- The edge at which the response of `q` becomes valid: `q` is decoded and its instruction runs, or its
opcode is reserved and `IllegalOp` is taken (30_encoding.md R74, 60_exceptions.md R174). -/
def runRequest (q : Request) (s : State) : Host.Outcome State Fault Refusal :=
  match decode q with
  | .ok i => exec i s
  | .error _ => raise .illegalOp s

/-- An edge with `SLOT = EMPTY` and `rst = 0`: the request transfer, or nothing (20_memory.md R42). -/
def edgeEmpty (p : PortInputs) (s : State) : Host.Outcome State Fault Refusal :=
  if p.reqValid then .next (s.accept p.req) else .next s

/-- An edge with `SLOT = BUSY(q)` and `rst = 0`. A valid response is held until the host is ready and then
transferred; before that the latency runs out, and at its last edge the response becomes valid
(20_memory.md R43). `req` and `req_valid` are not looked at (R42). A wait of 0, which no run reaches here,
is due like a wait of 1 (log entry 13). -/
def edgeBusy (p : PortInputs) (q : Request) (s : State) : Host.Outcome State Fault Refusal :=
  match s.out with
  | some r => if p.rspReady then .next (s.release q r) else .next s
  | none => if s.wait ≤ 1 then runRequest q s else .next s.countDown

/-- One rising clock edge with the pins at `p`; reset has priority over both transfers
(70_reset_and_hazards.md R200, R202). -/
def edge (p : PortInputs) (s : State) : Host.Outcome State Fault Refusal :=
  if p.rst then .next s.resetUnit
  else
    match s.slot with
    | .empty => edgeEmpty p s
    | .busy q => edgeBusy p q s

/-- The inputs with `rst` low at the next edge. -/
def inputsWithoutReset : List PortInputs → List PortInputs
  | [] => []
  | p :: ps => { p with rst := false } :: ps

/-- The state in which request `q` has been accepted and its response becomes valid at the next edge. -/
def State.withRequestDue (s : State) (q : Request) : State :=
  { s with slot := .busy q, wait := 1, out := none, inputs := inputsWithoutReset s.inputs }

end Sys2Proof.Machine
end

