-- ==== Sys2Proof/Machine/Step.lean ====
section
/-! DEFINITION. One step is one rising clock edge (log entry 1). -/

namespace Sys2Proof.Machine

/-- One rising clock edge, at which the unit samples the next levels on its input pins. -/
def step (s : State) : Host.Outcome State Fault Refusal := edge s.sampled s.afterSample

/-- The state whose very next step decodes and runs the table word `w`: the unit holds no program and
fetches none (10_state.md R26), so the word stands in the slot as an accepted request whose latency runs
out at the next edge, with no reset driven there. Log entry 10. -/
def State.withFetchWord (s : State) (nbits w : Nat) : State :=
  s.withRequestDue (requestOfTable nbits w)

end Sys2Proof.Machine
end

