-- ==== Sys2Proof/Machine/Transaction.lean ====
section
/-! DEFINITION. The transaction view: the spec's function `exec : request word -> response word`
(30_encoding.md R74; 00_scope.md R11), a pure function of the request word alone. -/

namespace Sys2Proof.Machine

/-- The response of an instruction, from its operands alone (00_scope.md R11). -/
def responseTo : Instr → Response
  | .froml x0 x1 x2 x3 => fromlResponse x0 x1 x2 x3
  | .fromn n => fromnResponse n
  | .tol a => tolResponse a
  | .cmpeq a b => cmpeqResponse a b
  | .fromb len d0 d1 d2 d3 d4 d5 d6 d7 => frombResponse len d0 d1 d2 d3 d4 d5 d6 d7
  | .tob a => tobResponse a
  | .add a b => addResponse a b
  | .adds a n => addsResponse a n
  | .muls a n => mulsResponse a n
  | .mul a b => mulResponse a b
  | .rotl a n => rotlResponse a n
  | .rotr a n => rotrResponse a n
  | .shl a n => shlResponse a n
  | .shr a n => shrResponse a n

/-- The spec's `exec(q)`: total on all 2^168 request words (30_encoding.md R69, R74). -/
def respond (q : Request) : Response :=
  match decode q with
  | .ok i => responseTo i
  | .error _ => .raised .illegalOp

/-- The spec's `exec` on the port words. -/
def respondWord (q : Request) : ResponseWord := (respond q).word

/-- The 9 transport bytes of a response word, byte 0 the status (20_memory.md R53). -/
def responseBytes (w : ResponseWord) : List Byte := bytesOfWord 9 w

/-- The response word that 9 transport bytes carry (20_memory.md R53). A byte string of another length is no
response word in the spec; DESIGN CHOICE, unsafe: the low 72 bits of its big-endian number are read, so a
longer one loses its first bytes and a shorter one is zero-extended (log entry 17). -/
def responseWordOfBytes (bytes : List Byte) : ResponseWord := BitVec.ofNat 72 (natOfBytes bytes)

end Sys2Proof.Machine
end

