-- ==== Sys2Proof/Machine/Script.lean ====
section
/-! DEFINITION. The host's command scripts (30_encoding.md R75, R76; 70_reset_and_hazards.md R206, R213):
straight-line, one transaction a line, names bound once, stopped by the first status that is not OK. -/

namespace Sys2Proof.Machine

/-- A value operand: a name bound by an earlier line, or a literal of four limbs (30_encoding.md R75). -/
inductive ValueArg where
  | name (x : String)
  | literal (v : Int64Value)
  deriving DecidableEq, Repr

/-- The right side of a script line: an operation with its operand list (30_encoding.md R75), or a
pseudo-operation (R76). -/
inductive Command where
  | froml (x0 x1 x2 x3 : Nat)
  | fromn (n : Nat)
  | tol (a : ValueArg)
  | cmpeq (a b : ValueArg)
  | fromb (len : Nat) (d0 d1 d2 d3 d4 d5 d6 d7 : Byte)
  | tob (a : ValueArg)
  | add (a b : ValueArg)
  | adds (a : ValueArg) (n : Nat)
  | muls (a : ValueArg) (n : Nat)
  | mul (a b : ValueArg)
  | rotl (a : ValueArg) (n : Int)
  | rotr (a : ValueArg) (n : Int)
  | shl (a : ValueArg) (n : Int)
  | shr (a : ValueArg) (n : Int)
  | zero
  | one
  | allOnes
  deriving DecidableEq, Repr

/-- `name = MNEMONIC operand, ...` (30_encoding.md R75). -/
structure Line where
  name : String
  command : Command
  deriving DecidableEq, Repr

/-- The values the host has bound, oldest first (70_reset_and_hazards.md R210 duty 8). -/
abbrev Env := List (String × Int64Value)

/-- The value bound to a name. -/
def Env.find (env : Env) (x : String) : Option Int64Value := (env.find? (fun p => p.1 == x)).map Prod.snd

/-- The host copies the 64 `RES` bits of an earlier response, or writes the literal (70_reset_and_hazards.md R206). -/
def ValueArg.value (env : Env) : ValueArg → Except Refusal Int64Value
  | .name x => match Env.find env x with
    | some v => .ok v
    | none => .error (.unboundName x)
  | .literal v => .ok v

/-- The instruction a command stands for, its operands copied in; a pseudo-operation is an abbreviation of
one real line (30_encoding.md R76). -/
def Command.instr (env : Env) : Command → Except Refusal Instr
  | .froml x0 x1 x2 x3 => .ok (.froml x0 x1 x2 x3)
  | .fromn n => .ok (.fromn n)
  | .tol a => do return .tol (← a.value env)
  | .cmpeq a b => do return .cmpeq (← a.value env) (← b.value env)
  | .fromb len d0 d1 d2 d3 d4 d5 d6 d7 => .ok (.fromb len d0 d1 d2 d3 d4 d5 d6 d7)
  | .tob a => do return .tob (← a.value env)
  | .add a b => do return .add (← a.value env) (← b.value env)
  | .adds a n => do return .adds (← a.value env) n
  | .muls a n => do return .muls (← a.value env) n
  | .mul a b => do return .mul (← a.value env) (← b.value env)
  | .rotl a n => do return .rotl (← a.value env) n
  | .rotr a n => do return .rotr (← a.value env) n
  | .shl a n => do return .shl (← a.value env) n
  | .shr a n => do return .shr (← a.value env) n
  | .zero => .ok (.fromn 0)
  | .one => .ok (.fromn 1)
  | .allOnes => .ok (.froml 0xFFFF 0xFFFF 0xFFFF 0xFFFF)

/-- The canonical request word of a script line, or why the notation has none (log entry 9). -/
def Line.request (env : Env) (l : Line) : Except Refusal Request :=
  if (Env.find env l.name).isSome then .error (.reboundName l.name)
  else match l.command.instr env with
    | .error e => .error e
    | .ok i => if i.wellFormed then .ok (encode i) else .error (.literalOutOfRange l.name)

/-- Runs the lines in order from line number `n`: each line is one transaction, an OK result is bound to
its name, and the first condition stops the script with that condition and line as its outcome
(30_encoding.md R75, 60_exceptions.md R180, 70_reset_and_hazards.md R213). Log entries 6 and 11. -/
def runScript : Nat → List Line → Env → Host.Outcome Env Fault Refusal
  | _, [], env => .next env
  | n, l :: rest, env =>
    match l.request env with
    | .error e => .refused e
    | .ok q =>
      match respond q with
      | .raised c => .fault (.condition c n)
      | .ok v => runScript (n + 1) rest (env ++ [(l.name, v)])

end Sys2Proof.Machine
end

