-- ==== Sys2Proof/Safety.lean ====
section
/-! DEFINITION. What a good state and a good run are, in the terms the statements use: the coherence of
the unit's state with the ports, the requests a run accepts, what an observer can time, and a state with
another history. -/

namespace Sys2Proof.Machine

/-- What the rules promise of every state a run reaches: with `SLOT = EMPTY` nothing is driven or awaited;
a response driven is the response to the request in the slot (20_memory.md R43, R49); a wait is at least
one edge and at most `LAT(q.OP)` (70_reset_and_hazards.md R211); and every response the host has taken
answers its own request (R49). -/
structure State.Coherent (s : State) : Prop where
  idle : s.slot = .empty → s.out = none ∧ s.wait = 0
  driven : ∀ r, s.out = some r → s.wait = 0 ∧ ∃ q, s.slot = .busy q ∧ r = respond q
  waiting : ∀ q, s.slot = .busy q → s.out = none → 1 ≤ s.wait ∧ s.wait ≤ latency s.latGiven q.op
  answered : ∀ q r, (q, r) ∈ s.transcript → r = respond q

/-- The opcode of the request in flight, if there is one. -/
def State.opInFlight (s : State) : Option (BitVec 8) :=
  match s.slot with
  | .empty => none
  | .busy q => some q.op

/-- The part of an edge's input levels that may bear on timing: not the operand fields of `req`. -/
def PortInputs.timing (p : PortInputs) : Bool × Bool × BitVec 8 × Bool :=
  (p.rst, p.reqValid, p.req.op, p.rspReady)

/-- Two states that agree on everything but the operands, the results and the history: the same opcode in
flight, the same edges left, a response valid in both or in neither, the same latencies, and hosts that
drive the same levels but for the operand fields (70_reset_and_hazards.md R209). -/
structure State.SameTiming (s t : State) : Prop where
  op : s.opInFlight = t.opInFlight
  wait : s.wait = t.wait
  valid : s.rspValid = t.rspValid
  latency : s.latGiven = t.latGiven
  inputs : s.inputs.map PortInputs.timing = t.inputs.map PortInputs.timing

/-- The state with other completed transactions before its own (20_memory.md R49: what came before). -/
def State.afterHistory (h : List (Request × Response)) (s : State) : State :=
  { s with transcript := h ++ s.transcript }

/-- The request words the unit accepts in the next `k` edges, in order (20_memory.md R42). -/
def acceptedIn : Nat → State → List Request
  | 0, _ => []
  | k + 1, s =>
    let now := if s.sampled.rst = false ∧ s.slot = .empty ∧ s.sampled.reqValid = true then [s.sampled.req] else []
    match step s with
    | .next t => now ++ acceptedIn k t
    | .fault _ => now
    | .refused _ => now

/-- The request in flight, as a list. -/
def State.inFlight (s : State) : List Request :=
  match s.slot with
  | .empty => []
  | .busy q => [q]

end Sys2Proof.Machine
end

