-- ==== Sys2Proof/Certificates/Slice0/Obligations.lean ====
section
/-! DEFINITION. The statements for the provers, from the numbered rules of spec/. -/

open Sys2Proof Sys2Proof.Machine

/-! ### Values and their views -/

/-- R14 and R20: `val` is a bijection between the values and `0 .. 2^64-1`, and `limbs` is its inverse. -/
def Obligations.ValAndLimbsAreInverse : Prop :=
  (∀ a : Int64Value, a.val = a.limb0.toNat * 2 ^ 48 + a.limb1.toNat * 2 ^ 32 + a.limb2.toNat * 2 ^ 16 + a.limb3.toNat
    ∧ a.val < 2 ^ 64 ∧ Int64Value.limbs a.val = a) ∧
  (∀ v, v < 2 ^ 64 → (Int64Value.limbs v).val = v ∧
    (Int64Value.limbs v).limb0.toNat = (v >>> 48) &&& 0xFFFF ∧ (Int64Value.limbs v).limb1.toNat = (v >>> 32) &&& 0xFFFF ∧
    (Int64Value.limbs v).limb2.toNat = (v >>> 16) &&& 0xFFFF ∧ (Int64Value.limbs v).limb3.toNat = v &&& 0xFFFF) ∧
  Int64Value.zero.val = 0 ∧ Int64Value.one.val = 1 ∧ Int64Value.allOnes64.val = 2 ^ 64 - 1

/-- R22: the bit-vector view and the byte view of a value. -/
def Obligations.BitAndByteViewsAreBigEndian : Prop :=
  ∀ a : Int64Value,
    a.toBits.extractLsb' 48 16 = a.limb0 ∧ a.toBits.extractLsb' 32 16 = a.limb1 ∧
    a.toBits.extractLsb' 16 16 = a.limb2 ∧ a.toBits.extractLsb' 0 16 = a.limb3 ∧
    a.toBits.toNat = a.val ∧ (∀ j, a.byte j = a.toBits.extractLsb' (56 - 8 * j.val) 8) ∧
    a.limb0.toNat = (a.byte 0).toNat * 256 + (a.byte 1).toNat ∧
    a.limb1.toNat = (a.byte 2).toNat * 256 + (a.byte 3).toNat ∧
    a.limb2.toNat = (a.byte 4).toNat * 256 + (a.byte 5).toNat ∧
    a.limb3.toNat = (a.byte 6).toNat * 256 + (a.byte 7).toNat

/-- R105: the decomposition of a native keeps it, with the two high limbs zero; `FROMN` and `ADDS` use it. -/
def Obligations.LimbsOfNativeKeepTheNative : Prop :=
  ∀ n, n < 2 ^ 32 →
    (limbsOfNative n).limb0 = 0 ∧ (limbsOfNative n).limb1 = 0 ∧
    (limbsOfNative n).limb2.toNat = (n >>> 16) &&& 0xFFFF ∧ (limbsOfNative n).limb3.toNat = n &&& 0xFFFF ∧
    (limbsOfNative n).val = n ∧
    ∀ s, exec (.fromn n) s = .next (s.drive (.ok (limbsOfNative n))) ∧
      ∀ a : Int64Value, exec (.adds a n) s = exec (.add a (limbsOfNative n)) s

/-! ### Encoding -/

/-- R67: decoding inverts encoding on every command; a word decodes to a command whose encoding is the
word's canonical form, so `encode(decode(q)) = q` for canonical words only; and the fields a format does
not read have no effect on the response. -/
def Obligations.DecodeInvertsEncodeAndIgnoresUnreadFields : Prop :=
  (∀ i : Instr, i.WellFormed → decode (encode i) = .ok i) ∧
  (∀ q i, decode q = .ok i → i.WellFormed ∧ encode i = q.canonical ∧ (encode i = q ↔ q.canonical = q)) ∧
  (∀ q q' : Request, q.canonical = q'.canonical → respond q = respond q')

/-- 30_encoding.md, The opcode map, and 60_exceptions.md, The conditions: the 242 opcodes outside the table
are answered with `IllegalOp` whatever the other fields hold, and no other request is; such a request is
accepted like any other; the all-zero word is one. The fifth clause, the edge at which the response becomes
valid, is the model's choice: an operation acts at that edge (log entry 1), `wait` counts down to it (log
entry 3), and a wait of 0 is due like a wait of 1 (log entry 13). -/
def Obligations.ReservedOpcodesAreIllegal : Prop :=
  (∀ op : BitVec 8, op ∉ definedOpcodes ↔
    op.toNat ≤ 0x0F ∨ (0x14 ≤ op.toNat ∧ op.toNat ≤ 0x1F) ∨ (0x22 ≤ op.toNat ∧ op.toNat ≤ 0x2F) ∨
    (0x34 ≤ op.toNat ∧ op.toNat ≤ 0x3F) ∨ 0x44 ≤ op.toNat) ∧
  ((List.range 256).filter fun n => BitVec.ofNat 8 n ∉ definedOpcodes).length = 242 ∧
  (∀ q : Request, respond q = .raised .illegalOp ↔ q.op ∉ definedOpcodes) ∧
  (∀ s : State, s.slot = .empty → s.sampled.rst = false → s.sampled.reqValid = true →
    s.sampled.req.op ∉ definedOpcodes → ∃ t, step s = .next t ∧ t.slot = .busy s.sampled.req) ∧
  (∀ (s : State) (q : Request), s.slot = .busy q → s.out = none → s.wait ≤ 1 → s.sampled.rst = false →
    q.op ∉ definedOpcodes → step s = .next (s.afterSample.drive (.raised .illegalOp))) ∧
  respond 0 = .raised .illegalOp

/-- Eight request words of 95_test_vectors.md decode to the instructions their lines write. -/
def Obligations.WordsOfTheSpecDecode : Prop :=
  decode 0x10000000000000012300004567000089AB0000CDEF#168 = .ok (.froml 0x123 0x4567 0x89AB 0xCDEF) ∧
  decode 0x111234567800000000000000000000000000000000#168 = .ok (.fromn 0x12345678) ∧
  decode 0x20000000070123456789ABCDEF0000000000000000#168 =
    .ok (.fromb 7 0x01 0x23 0x45 0x67 0x89 0xAB 0xCD 0xEF) ∧
  decode 0x3000000000123456789ABCDEF0FEDCBA9876543210#168 =
    .ok (.add ⟨0x1234, 0x5678, 0x9ABC, 0xDEF0⟩ ⟨0xFEDC, 0xBA98, 0x7654, 0x3210⟩) ∧
  decode 0x32DEADBEEF0123456789ABCDEF0000000000000000#168 = .ok (.muls ⟨0x0123, 0x4567, 0x89AB, 0xCDEF⟩ 0xDEADBEEF) ∧
  decode 0x41FFFFFFF00123456789ABCDEF0000000000000000#168 = .ok (.rotr ⟨0x0123, 0x4567, 0x89AB, 0xCDEF⟩ (-16)) ∧
  decode 0x430000001A00000003696874000000000000000000#168 = .ok (.shr ⟨0, 3, 26984, 29696⟩ 26) ∧
  decode 0x0F0000000000000000000000000000000000000000#168 = .error (.reservedOpcode 0x0F)

/-- 30_encoding.md, The response word: the layout of the word, its status codes and its transport bytes. What
a host reads back from a word, a result, a condition with no result attached, or nothing for a status this
unit never produces, is the model's inference (log entry 8; U13 of 93_implementation_defined.md). -/
def Obligations.ResponseWordsCarryStatusAndResult : Prop :=
  (∀ v : Int64Value, (Response.ok v).word.extractLsb' 64 8 = 0x00 ∧
    (Response.ok v).word.extractLsb' 48 16 = v.limb0 ∧ (Response.ok v).word.extractLsb' 32 16 = v.limb1 ∧
    (Response.ok v).word.extractLsb' 16 16 = v.limb2 ∧ (Response.ok v).word.extractLsb' 0 16 = v.limb3) ∧
  (∀ c : Condition, (Response.raised c).word.extractLsb' 64 8 = c.code ∧ (Response.raised c).word.extractLsb' 0 64 = 0) ∧
  Condition.code .invalidLength = 0x01 ∧ Condition.code .invalidLimb = 0x02 ∧
  Condition.code .invalidAmount = 0x03 ∧ Condition.code .illegalOp = 0x04 ∧
  (∀ r : Response, responseOfWord r.word = some r) ∧
  (∀ w : ResponseWord, responseOfWord w = none ↔ 0x05 ≤ (w.extractLsb' 64 8).toNat) ∧
  (∀ w : ResponseWord, (responseBytes w)[0]? = some (w.extractLsb' 64 8) ∧
    ∀ k, k < 8 → (responseBytes w)[k + 1]? = some (w.extractLsb' (56 - 8 * k) 8))

/-- R53: the transport order of request and response words, most significant byte first. -/
def Obligations.WordsTravelMostSignificantByteFirst : Prop :=
  (∀ q : Request, (requestBytes q).length = 21 ∧
    (∀ k, k < 21 → (requestBytes q)[k]? = some (q.extractLsb' (160 - 8 * k) 8)) ∧
    requestOfBytes (requestBytes q) = q ∧ decodeBytes (requestBytes q) = decode q) ∧
  (∀ w : ResponseWord, (responseBytes w).length = 9 ∧
    (∀ k, k < 9 → (responseBytes w)[k]? = some (w.extractLsb' (64 - 8 * k) 8)) ∧
    responseWordOfBytes (responseBytes w) = w)

/-! ### Construction, extraction, comparison -/

/-- 40_construct_compare.md, FROML: `FROML` reads four raw limbs, builds the value when all are in range,
and raises `InvalidLimb` when any exceeds 0xFFFF, that is when any upper half is non-zero. It is said of
every number in the syntax: for one that its field cannot carry, the model's choice (log entry 18). -/
def Obligations.FromlBuildsOrRejects : Prop :=
  (∀ q : Request, q.op = 0x10#8 → decode q = .ok (.froml (q.extractLsb' 96 32).toNat (q.extractLsb' 64 32).toNat
    (q.extractLsb' 32 32).toNat (q.extractLsb' 0 32).toNat)) ∧
  (∀ x0 x1 x2 x3 s, x0 ≤ 0xFFFF → x1 ≤ 0xFFFF → x2 ≤ 0xFFFF → x3 ≤ 0xFFFF →
    ∃ v : Int64Value, exec (.froml x0 x1 x2 x3) s = .next (s.drive (.ok v)) ∧
      v.limb0.toNat = x0 ∧ v.limb1.toNat = x1 ∧ v.limb2.toNat = x2 ∧ v.limb3.toNat = x3) ∧
  (∀ x0 x1 x2 x3 s, 0xFFFF < x0 ∨ 0xFFFF < x1 ∨ 0xFFFF < x2 ∨ 0xFFFF < x3 →
    exec (.froml x0 x1 x2 x3) s = .next (s.drive (.raised .invalidLimb))) ∧
  (∀ q : Request, q.op = 0x10#8 → (respond q = .raised .invalidLimb ↔
    q.extractLsb' 112 16 ≠ 0 ∨ q.extractLsb' 80 16 ≠ 0 ∨ q.extractLsb' 48 16 ≠ 0 ∨ q.extractLsb' 16 16 ≠ 0))

/-- R102: `FROMN` gives `[0, 0, IMM[31:16], IMM[15:0]]`, and equals `ADDS zero, n` and `MULS one, n`. -/
def Obligations.FromnDecomposesTheNative : Prop :=
  (∀ q : Request, q.op = 0x11#8 → decode q = .ok (.fromn (q.extractLsb' 128 32).toNat) ∧
    respond q = .ok ⟨0, 0, q.extractLsb' 144 16, q.extractLsb' 128 16⟩) ∧
  (∀ n s, n < 2 ^ 32 → ∃ v : Int64Value, exec (.fromn n) s = .next (s.drive (.ok v)) ∧ v.val = n ∧
    exec (.fromn n) s = exec (.adds .zero n) s ∧ exec (.fromn n) s = exec (.muls .one n) s)

/-- R103: `TOL` hands the 64 bits of field `A` out unchanged; on the bits it is `TOB`. -/
def Obligations.TolReturnsItsOperand : Prop :=
  (∀ q : Request, q.op = 0x12#8 → ∃ a : Int64Value, decode q = .ok (.tol a) ∧ a.toBits = q.extractLsb' 64 64 ∧
    (respond q).word = BitVec.zeroExtend 72 (q.extractLsb' 64 64)) ∧
  (∀ (a : Int64Value) s, exec (.tol a) s = .next (s.drive (.ok a)) ∧ exec (.tol a) s = exec (.tob a) s)

/-- R104: `CMPEQ` gives `one` when all four limbs match and `zero` otherwise, which is equality of the
integers the two values stand for. -/
def Obligations.CmpeqComparesLimbsPairwise : Prop :=
  (∀ q : Request, q.op = 0x13#8 → ∃ a b : Int64Value, decode q = .ok (.cmpeq a b) ∧
    a.toBits = q.extractLsb' 64 64 ∧ b.toBits = q.extractLsb' 0 64) ∧
  (∀ (a b : Int64Value) s, a.limb0 = b.limb0 ∧ a.limb1 = b.limb1 ∧ a.limb2 = b.limb2 ∧ a.limb3 = b.limb3 →
    exec (.cmpeq a b) s = .next (s.drive (.ok ⟨0, 0, 0, 1⟩))) ∧
  (∀ (a b : Int64Value) s, ¬(a.limb0 = b.limb0 ∧ a.limb1 = b.limb1 ∧ a.limb2 = b.limb2 ∧ a.limb3 = b.limb3) →
    exec (.cmpeq a b) s = .next (s.drive (.ok ⟨0, 0, 0, 0⟩))) ∧
  (∀ (a b : Int64Value) s, exec (.cmpeq a b) s = .next (s.drive (.ok .one)) ↔ a.val = b.val) ∧
  (∀ (a b : Int64Value) s, exec (.cmpeq a b) s = exec (.cmpeq b a) s)

/-! ### Serialization -/

/-- 41_serialization.md, FROMB: `FROMB` checks the length first, then reads the eight lanes strictly big-endian.
It is said of every number in the syntax: for one that its field cannot carry, the model's choice (log entry 18). -/
def Obligations.FrombReadsExactlyEightBytes : Prop :=
  (∀ q : Request, q.op = 0x20#8 → decode q = .ok (.fromb (q.extractLsb' 128 32).toNat
      (q.extractLsb' 120 8) (q.extractLsb' 112 8) (q.extractLsb' 104 8) (q.extractLsb' 96 8)
      (q.extractLsb' 88 8) (q.extractLsb' 80 8) (q.extractLsb' 72 8) (q.extractLsb' 64 8))) ∧
  (∀ d0 d1 d2 d3 d4 d5 d6 d7 s, ∃ v : Int64Value,
    exec (.fromb 8 d0 d1 d2 d3 d4 d5 d6 d7) s = .next (s.drive (.ok v)) ∧
    v.limb0.toNat = d0.toNat * 256 + d1.toNat ∧ v.limb1.toNat = d2.toNat * 256 + d3.toNat ∧
    v.limb2.toNat = d4.toNat * 256 + d5.toNat ∧ v.limb3.toNat = d6.toNat * 256 + d7.toNat) ∧
  (∀ len d0 d1 d2 d3 d4 d5 d6 d7 s, len ≠ 8 →
    exec (.fromb len d0 d1 d2 d3 d4 d5 d6 d7) s = .next (s.drive (.raised .invalidLength))) ∧
  (∀ q : Request, q.op = 0x20#8 → q.extractLsb' 128 32 = 8 →
    (respond q).word = BitVec.zeroExtend 72 (q.extractLsb' 64 64))

/-- R121: `TOB` hands the value out, and its byte view is the eight bytes of the limbs. -/
def Obligations.TobReturnsEightBigEndianBytes : Prop :=
  (∀ q : Request, q.op = 0x21#8 → ∃ a : Int64Value, decode q = .ok (.tob a) ∧ a.toBits = q.extractLsb' 64 64) ∧
  (∀ (a : Int64Value) s, exec (.tob a) s = .next (s.drive (.ok a)) ∧
    (a.byte 0).toNat = a.limb0.toNat >>> 8 ∧ (a.byte 1).toNat = a.limb0.toNat &&& 0xFF ∧
    (a.byte 2).toNat = a.limb1.toNat >>> 8 ∧ (a.byte 3).toNat = a.limb1.toNat &&& 0xFF ∧
    (a.byte 4).toNat = a.limb2.toNat >>> 8 ∧ (a.byte 5).toNat = a.limb2.toNat &&& 0xFF ∧
    (a.byte 6).toNat = a.limb3.toNat >>> 8 ∧ (a.byte 7).toNat = a.limb3.toNat &&& 0xFF)

/-- The round trip of 41_serialization.md, Laws: `TOB` is the exact inverse of `FROMB`, both ways. -/
def Obligations.SerializationRoundTrips : Prop :=
  (∀ d0 d1 d2 d3 d4 d5 d6 d7 s, ∃ v : Int64Value,
    exec (.fromb 8 d0 d1 d2 d3 d4 d5 d6 d7) s = .next (s.drive (.ok v)) ∧ exec (.tob v) s = .next (s.drive (.ok v)) ∧
    v.byte 0 = d0 ∧ v.byte 1 = d1 ∧ v.byte 2 = d2 ∧ v.byte 3 = d3 ∧
    v.byte 4 = d4 ∧ v.byte 5 = d5 ∧ v.byte 6 = d6 ∧ v.byte 7 = d7) ∧
  (∀ (v : Int64Value) s,
    exec (.fromb 8 (v.byte 0) (v.byte 1) (v.byte 2) (v.byte 3) (v.byte 4) (v.byte 5) (v.byte 6) (v.byte 7)) s
      = .next (s.drive (.ok v)))

/-! ### Arithmetic -/

/-- The law of the arithmetic family (42_arithmetic.md, The law of the family, which derives it from the
limb recurrences): each operation answers the exact integer result modulo 2^64.
It is said of every number in the syntax: for one that its field cannot carry, the model's choice (log entry 18). -/
def Obligations.ArithmeticIsModulo2To64 : Prop :=
  (∀ (a b : Int64Value) s, exec (.add a b) s = .next (s.drive (.ok (.limbs ((a.val + b.val) % 2 ^ 64))))) ∧
  (∀ (a : Int64Value) n s, n < 2 ^ 32 → exec (.adds a n) s = .next (s.drive (.ok (.limbs ((a.val + n) % 2 ^ 64))))) ∧
  (∀ (a : Int64Value) n s, exec (.muls a n) s = .next (s.drive (.ok (.limbs ((a.val * n) % 2 ^ 64))))) ∧
  (∀ (a b : Int64Value) s, exec (.mul a b) s = .next (s.drive (.ok (.limbs ((a.val * b.val) % 2 ^ 64)))))

/-- R131: `ADD` is the limb sum with the carry propagated from limb 3 up, a carry of one bit, the carry
out of limb 0 dropped; it is commutative, and `ADD a, a` is `SHL a, 1` and `MULS a, 2`. -/
def Obligations.AddPropagatesTheLimbCarry : Prop :=
  (∀ q : Request, q.op = 0x30#8 → ∃ a b : Int64Value, decode q = .ok (.add a b) ∧
    a.toBits = q.extractLsb' 64 64 ∧ b.toBits = q.extractLsb' 0 64) ∧
  (∀ (a b : Int64Value) s, ∃ (r : Int64Value) (sum3 sum2 sum1 sum0 : Nat), exec (.add a b) s = .next (s.drive (.ok r)) ∧
    sum3 = a.limb3.toNat + b.limb3.toNat + 0 ∧ r.limb3.toNat = sum3 % 0x10000 ∧
    sum2 = a.limb2.toNat + b.limb2.toNat + sum3 / 0x10000 ∧ r.limb2.toNat = sum2 % 0x10000 ∧
    sum1 = a.limb1.toNat + b.limb1.toNat + sum2 / 0x10000 ∧ r.limb1.toNat = sum1 % 0x10000 ∧
    sum0 = a.limb0.toNat + b.limb0.toNat + sum1 / 0x10000 ∧ r.limb0.toNat = sum0 % 0x10000 ∧
    sum3 ≤ 0x1FFFF ∧ sum2 ≤ 0x1FFFF ∧ sum1 ≤ 0x1FFFF ∧ sum0 ≤ 0x1FFFF) ∧
  (∀ (a b : Int64Value) s, exec (.add a b) s = exec (.add b a) s) ∧
  (∀ (a : Int64Value) s, exec (.add a a) s = exec (.shl a 1) s ∧ exec (.add a a) s = exec (.muls a 2) s)

/-- R132: `ADDS` is `ADD` of the value and the native's limbs. -/
def Obligations.AddsAddsTheNativesLimbs : Prop :=
  (∀ q : Request, q.op = 0x31#8 → ∃ a : Int64Value, decode q = .ok (.adds a (q.extractLsb' 128 32).toNat) ∧
    a.toBits = q.extractLsb' 64 64) ∧
  (∀ (a : Int64Value) n s, n < 2 ^ 32 → ∃ b r : Int64Value, b.limb0 = 0 ∧ b.limb1 = 0 ∧
    b.limb2.toNat = n / 0x10000 ∧ b.limb3.toNat = n % 0x10000 ∧
    exec (.fromn n) s = .next (s.drive (.ok b)) ∧
    exec (.adds a n) s = .next (s.drive (.ok r)) ∧ exec (.add a b) s = .next (s.drive (.ok r)))

/-- R133: `MULS` is the limb recurrence on `a.limb[i] * n` with a 48-bit accumulator and a 32-bit carry,
the carry out of limb 0 dropped; and it agrees with `FROMN`, `ADD` and `SHL` where the rule says so. -/
def Obligations.MulsAccumulatesIn48Bits : Prop :=
  (∀ q : Request, q.op = 0x32#8 → ∃ a : Int64Value, decode q = .ok (.muls a (q.extractLsb' 128 32).toNat) ∧
    a.toBits = q.extractLsb' 64 64) ∧
  (∀ (a : Int64Value) n s, n < 2 ^ 32 →
    ∃ (r : Int64Value) (acc3 acc2 acc1 acc0 : Nat), exec (.muls a n) s = .next (s.drive (.ok r)) ∧
    acc3 = a.limb3.toNat * n + 0 ∧ r.limb3.toNat = acc3 % 0x10000 ∧
    acc2 = a.limb2.toNat * n + acc3 / 0x10000 ∧ r.limb2.toNat = acc2 % 0x10000 ∧
    acc1 = a.limb1.toNat * n + acc2 / 0x10000 ∧ r.limb1.toNat = acc1 % 0x10000 ∧
    acc0 = a.limb0.toNat * n + acc1 / 0x10000 ∧ r.limb0.toNat = acc0 % 0x10000 ∧
    acc3 ≤ 2 ^ 48 - 2 ^ 16 ∧ acc2 ≤ 2 ^ 48 - 2 ^ 16 ∧ acc1 ≤ 2 ^ 48 - 2 ^ 16 ∧ acc0 ≤ 2 ^ 48 - 2 ^ 16 ∧
    acc3 / 0x10000 ≤ 2 ^ 32 - 1 ∧ acc2 / 0x10000 ≤ 2 ^ 32 - 1 ∧ acc1 / 0x10000 ≤ 2 ^ 32 - 1 ∧
    acc0 / 0x10000 ≤ 2 ^ 32 - 1) ∧
  (∀ n s, n < 2 ^ 32 → exec (.muls .one n) s = exec (.fromn n) s) ∧
  (∀ (a : Int64Value) s, exec (.muls a 2) s = exec (.add a a) s ∧ exec (.muls a 0x10000) s = exec (.shl a 16) s)

/-- R134: `MUL` sums the ten partial products of weight below 2^64 in four columns, with a 34-bit
accumulator and an 18-bit carry, the carry out of column 3 dropped; `MUL` is commutative and takes in `MULS`. -/
def Obligations.MulAccumulatesTenPartialProducts : Prop :=
  (∀ q : Request, q.op = 0x33#8 → ∃ a b : Int64Value, decode q = .ok (.mul a b) ∧
    a.toBits = q.extractLsb' 64 64 ∧ b.toBits = q.extractLsb' 0 64) ∧
  (∀ (a b : Int64Value) s, ∃ (r : Int64Value) (acc0 acc1 acc2 acc3 : Nat), exec (.mul a b) s = .next (s.drive (.ok r)) ∧
    acc0 = a.limb3.toNat * b.limb3.toNat + 0 ∧ r.limb3.toNat = acc0 % 0x10000 ∧
    acc1 = a.limb2.toNat * b.limb3.toNat + a.limb3.toNat * b.limb2.toNat + acc0 / 0x10000 ∧
    r.limb2.toNat = acc1 % 0x10000 ∧
    acc2 = a.limb1.toNat * b.limb3.toNat + a.limb2.toNat * b.limb2.toNat + a.limb3.toNat * b.limb1.toNat
      + acc1 / 0x10000 ∧ r.limb1.toNat = acc2 % 0x10000 ∧
    acc3 = a.limb0.toNat * b.limb3.toNat + a.limb1.toNat * b.limb2.toNat + a.limb2.toNat * b.limb1.toNat
      + a.limb3.toNat * b.limb0.toNat + acc2 / 0x10000 ∧ r.limb0.toNat = acc3 % 0x10000 ∧
    acc0 ≤ 0x3FFFB0000 ∧ acc1 ≤ 0x3FFFB0000 ∧ acc2 ≤ 0x3FFFB0000 ∧ acc3 ≤ 0x3FFFB0000 ∧
    acc0 / 0x10000 ≤ 0x3FFFB ∧ acc1 / 0x10000 ≤ 0x3FFFB ∧ acc2 / 0x10000 ≤ 0x3FFFB ∧ acc3 / 0x10000 ≤ 0x3FFFB) ∧
  (∀ (a b : Int64Value) s, exec (.mul a b) s = exec (.mul b a) s) ∧
  (∀ (a : Int64Value) n s, n < 2 ^ 32 → exec (.mul a (limbsOfNative n)) s = exec (.muls a n) s)

/-- The laws of 42_arithmetic.md, Datapath and laws: `ADD` is commutative and associative with neutral
`zero`, `MUL` is commutative and associative and distributes over `ADD`, the small forms are the wide
forms on `FROMN`'s value, and all-ones plus one is zero. -/
def Obligations.ArithmeticLaws : Prop :=
  (∀ a : Int64Value, addValue a .zero = a) ∧ addValue .allOnes64 .one = .zero ∧
  (∀ a b : Int64Value, addValue a b = addValue b a) ∧
  (∀ a b c : Int64Value, addValue (addValue a b) c = addValue a (addValue b c)) ∧
  (∀ a : Int64Value, mulsValue a 0 = .zero) ∧ (∀ n, n < 2 ^ 32 → mulsValue .one n = addsValue .zero n) ∧
  (∀ a b : Int64Value, mulValue a b = mulValue b a) ∧
  (∀ a b c : Int64Value, mulValue (mulValue a b) c = mulValue a (mulValue b c)) ∧
  (∀ a b c : Int64Value, mulValue a (addValue b c) = addValue (mulValue a b) (mulValue a c)) ∧
  (∀ a n, n < 2 ^ 32 → addsValue a n = addValue a (limbsOfNative n)) ∧
  (∀ a n, n < 2 ^ 32 → mulsValue a n = mulValue a (limbsOfNative n))

/-- The alternative the source permits for `mul64` (42_arithmetic.md, Datapath and laws): `MUL a, b` is the
`ADD`-sum of `SHL (MULS a, b.limb[j]), 16*(3-j)` over the four limbs of `b`. -/
def Obligations.MulIsTheSumOfShiftedSmallProducts : Prop :=
  ∀ (a b : Int64Value) s, ∃ p0 p1 p2 p3 q0 q1 q2 q3 : Int64Value,
    exec (.muls a b.limb0.toNat) s = .next (s.drive (.ok p0)) ∧ exec (.shl p0 48) s = .next (s.drive (.ok q0)) ∧
    exec (.muls a b.limb1.toNat) s = .next (s.drive (.ok p1)) ∧ exec (.shl p1 32) s = .next (s.drive (.ok q1)) ∧
    exec (.muls a b.limb2.toNat) s = .next (s.drive (.ok p2)) ∧ exec (.shl p2 16) s = .next (s.drive (.ok q2)) ∧
    exec (.muls a b.limb3.toNat) s = .next (s.drive (.ok p3)) ∧ exec (.shl p3 0) s = .next (s.drive (.ok q3)) ∧
    exec (.mul a b) s = .next (s.drive (.ok (addValue (addValue (addValue q3 q2) q1) q0)))

/-! ### Bitwise operations -/

/-- The amount (43_bitwise.md, The amount, which derives the hardware forms): a rotate's reduced amount is
`IMM[5:0]`, and a shift's range test is `u32(IMM) > 64`. -/
def Obligations.AmountIsReducedOrChecked : Prop :=
  (∀ q : Request, rotateAmount q.amount = (q.extractLsb' 128 6).toNat) ∧
  (∀ q : Request, (q.amount < 0 ∨ 64 < q.amount) ↔ 64 < (q.extractLsb' 128 32).toNat)

/-- 43_bitwise.md, ROTL: `ROTL` is `(w << r) | (w >> (64 - r))` with `r = n mod 64` and amount 0 by the explicit case;
that is the rotation of the 64-bit word.
It is said of every number in the syntax: for one that its field cannot carry, the model's choice (log entry 18). -/
def Obligations.RotlRotatesTheWordLeft : Prop :=
  (∀ q : Request, q.op = 0x40#8 → ∃ a : Int64Value, decode q = .ok (.rotl a (q.extractLsb' 128 32).toInt) ∧
    a.toBits = q.extractLsb' 64 64) ∧
  (∀ (a : Int64Value) (n : Int) s, ∃ v : Int64Value, exec (.rotl a n) s = .next (s.drive (.ok v)) ∧
    (n % 64 = 0 → v = a) ∧
    (n % 64 ≠ 0 → v.val = ((a.val <<< (n % 64).toNat) % 2 ^ 64) ||| (a.val >>> (64 - (n % 64).toNat))) ∧
    v.toBits = a.toBits.rotateLeft (n % 64).toNat)

/-- 43_bitwise.md, ROTR: `ROTR` is `(w >> r) | (w << (64 - r))` with `r = n mod 64` and amount 0 by the explicit case;
that is the rotation of the 64-bit word.
It is said of every number in the syntax: for one that its field cannot carry, the model's choice (log entry 18). -/
def Obligations.RotrRotatesTheWordRight : Prop :=
  (∀ q : Request, q.op = 0x41#8 → ∃ a : Int64Value, decode q = .ok (.rotr a (q.extractLsb' 128 32).toInt) ∧
    a.toBits = q.extractLsb' 64 64) ∧
  (∀ (a : Int64Value) (n : Int) s, ∃ v : Int64Value, exec (.rotr a n) s = .next (s.drive (.ok v)) ∧
    (n % 64 = 0 → v = a) ∧
    (n % 64 ≠ 0 → v.val = (a.val >>> (n % 64).toNat) ||| ((a.val <<< (64 - (n % 64).toNat)) % 2 ^ 64)) ∧
    v.toBits = a.toBits.rotateRight (n % 64).toNat)

/-- 43_bitwise.md, SHL: `SHL` shifts left with zero fill for amounts `0 .. 64`, 64 giving `zero`, and raises
`InvalidAmount` for every other amount.
It is said of every number in the syntax: for one that its field cannot carry, the model's choice (log entry 18). -/
def Obligations.ShlShiftsLeftOrRejects : Prop :=
  (∀ q : Request, q.op = 0x42#8 → ∃ a : Int64Value, decode q = .ok (.shl a (q.extractLsb' 128 32).toInt) ∧
    a.toBits = q.extractLsb' 64 64) ∧
  (∀ (a : Int64Value) (n : Int) s, n < 0 ∨ 64 < n → exec (.shl a n) s = .next (s.drive (.raised .invalidAmount))) ∧
  (∀ (a : Int64Value) (n : Int) s, 0 ≤ n → n ≤ 64 → ∃ v : Int64Value, exec (.shl a n) s = .next (s.drive (.ok v)) ∧
    (n = 64 → v = .zero) ∧ v.val = (a.val <<< n.toNat) % 2 ^ 64 ∧ v.toBits = a.toBits <<< n.toNat)

/-- 43_bitwise.md, SHR, which derives the range from that of `SHL`: `SHR` shifts right with zero fill for
amounts `0 .. 64`, 64 giving `zero`, and raises `InvalidAmount` for every other amount.
It is said of every number in the syntax: for one that its field cannot carry, the model's choice (log entry 18). -/
def Obligations.ShrShiftsRightOrRejects : Prop :=
  (∀ q : Request, q.op = 0x43#8 → ∃ a : Int64Value, decode q = .ok (.shr a (q.extractLsb' 128 32).toInt) ∧
    a.toBits = q.extractLsb' 64 64) ∧
  (∀ (a : Int64Value) (n : Int) s, n < 0 ∨ 64 < n → exec (.shr a n) s = .next (s.drive (.raised .invalidAmount))) ∧
  (∀ (a : Int64Value) (n : Int) s, 0 ≤ n → n ≤ 64 → ∃ v : Int64Value, exec (.shr a n) s = .next (s.drive (.ok v)) ∧
    (n = 64 → v = .zero) ∧ v.val = a.val >>> n.toNat ∧ v.toBits = a.toBits >>> n.toNat)

/-- The limb-level structure of the barrel shifter (43_bitwise.md, Limb-level structure of the shifter,
which derives it) gives what the word-level definitions give, for every value and every amount in `0 .. 63`. -/
def Obligations.LimbLevelShifterEqualsTheWordLevel : Prop :=
  ∀ (a : Int64Value) (m : Nat) s, m < 64 →
    exec (.rotl a m) s = .next (s.drive (.ok (rotlLimbs a m))) ∧
    exec (.rotr a m) s = .next (s.drive (.ok (rotrLimbs a m))) ∧
    exec (.shl a m) s = .next (s.drive (.ok (shlLimbs a m))) ∧
    exec (.shr a m) s = .next (s.drive (.ok (shrLimbs a m)))

/-- The rotation laws of 43_bitwise.md, Laws: the inverse law for every amount, rotation by multiples of
64 the identity, rotation by 16, 32 and 48 a limb permutation, rotations add, right is left by the
complement.
It is said of every number in the syntax: for one that its field cannot carry, the model's choice (log entry 18). -/
def Obligations.RotationLaws : Prop :=
  (∀ (a : Int64Value) (n : Int), rotlValue (rotrValue a n) n = a ∧ rotrValue (rotlValue a n) n = a) ∧
  (∀ a : Int64Value, rotlValue a 0 = a ∧ rotlValue a 64 = a ∧ rotrValue a 0 = a ∧ rotrValue a 64 = a) ∧
  (∀ a : Int64Value, rotlValue a 16 = ⟨a.limb1, a.limb2, a.limb3, a.limb0⟩ ∧
    rotlValue a 32 = ⟨a.limb2, a.limb3, a.limb0, a.limb1⟩ ∧ rotlValue a 48 = ⟨a.limb3, a.limb0, a.limb1, a.limb2⟩) ∧
  (∀ (a : Int64Value) (m n : Int), rotlValue (rotlValue a m) n = rotlValue a (m + n)) ∧
  (∀ (a : Int64Value) (m n : Int), (m + n) % 64 = 0 → rotrValue a n = rotlValue a m)

/-- The shift laws of 43_bitwise.md, Laws: shifting there and back clears the bits shifted out, and a
rotate is the sum of the two shifts. -/
def Obligations.ShiftLaws : Prop :=
  (∀ (a : Int64Value) (n : Int), 0 ≤ n → n ≤ 64 → ∃ l r lr rl : Int64Value,
    shlResponse a n = .ok l ∧ shrResponse l n = .ok lr ∧ lr.val = a.val % 2 ^ (64 - n.toNat) ∧
    shrResponse a n = .ok r ∧ shlResponse r n = .ok rl ∧ rl.val = a.val - a.val % 2 ^ n.toNat) ∧
  (∀ (a : Int64Value) (r : Int), 1 ≤ r → r ≤ 63 → ∃ x y : Int64Value,
    shlResponse a r = .ok x ∧ shrResponse a (64 - r) = .ok y ∧ rotlValue a r = addValue x y)

/-! ### Conditions -/

/-- R71, R170 to R173: the status of the response says which of the five ways the request ended in, each
condition exactly when its rule says, with nothing beside its code; no other status is produced. -/
def Obligations.ConditionsAreRaisedExactlyAsListed : Prop :=
  ∀ q : Request,
    ((respondWord q).extractLsb' 64 8 = 0x01 ↔ q.op = 0x20#8 ∧ (q.extractLsb' 128 32).toNat ≠ 8) ∧
    ((respondWord q).extractLsb' 64 8 = 0x02 ↔ q.op = 0x10#8 ∧
      (0xFFFF < (q.extractLsb' 96 32).toNat ∨ 0xFFFF < (q.extractLsb' 64 32).toNat ∨
        0xFFFF < (q.extractLsb' 32 32).toNat ∨ 0xFFFF < (q.extractLsb' 0 32).toNat)) ∧
    ((respondWord q).extractLsb' 64 8 = 0x03 ↔ (q.op = 0x42#8 ∨ q.op = 0x43#8) ∧
      ((q.extractLsb' 128 32).toInt < 0 ∨ 64 < (q.extractLsb' 128 32).toInt)) ∧
    ((respondWord q).extractLsb' 64 8 = 0x03 ↔ (q.op = 0x42#8 ∨ q.op = 0x43#8) ∧ 64 < (q.extractLsb' 128 32).toNat) ∧
    ((respondWord q).extractLsb' 64 8 = 0x04 ↔ q.op ∉ definedOpcodes) ∧
    ((respondWord q).extractLsb' 64 8 = 0x00 ↔ ∃ v, respond q = .ok v ∧ (respondWord q).extractLsb' 0 64 = v.toBits) ∧
    ((respondWord q).extractLsb' 64 8 ≠ 0x00 → (respondWord q).extractLsb' 0 64 = 0) ∧
    ((respondWord q).extractLsb' 64 8).toNat ≤ 0x04

/-- 60_exceptions.md, How a condition is reported: a condition completes the transaction as a result does:
the response becomes valid with the code and no value, is held until the host takes it, and leaves the slot
EMPTY and the unit as any other transaction leaves it; the host's other state changes by the one record. The
first clause rests on the model's choices: a condition is a next state (log entry 6), `wait` is the model's
counter (log entry 3), and a wait of 0 is due like a wait of 1 (log entry 13); the record is the model's own
field (log entry 5). -/
def Obligations.ConditionCompletesLikeAResult : Prop :=
  (∀ (s : State) (q : Request) (c : Condition), s.slot = .busy q → s.out = none → s.wait ≤ 1 →
    s.sampled.rst = false → respond q = .raised c →
    ∃ t, step s = .next t ∧ t.rspValid = true ∧ t.rsp = some (Response.raised c).word ∧
      (Response.raised c).word.extractLsb' 64 8 = c.code ∧ (Response.raised c).word.extractLsb' 0 64 = 0 ∧
      t.slot = .busy q ∧ t.transcript = s.transcript ∧ t.inputs = s.inputs.tail ∧ t.latGiven = s.latGiven) ∧
  (∀ (s : State) (q : Request) (c : Condition), s.slot = .busy q → s.out = some (.raised c) →
    s.sampled.rst = false → s.sampled.rspReady = false → step s = .next s.afterSample) ∧
  (∀ (s : State) (q : Request) (c : Condition) (v : Int64Value), s.slot = .busy q → s.out = some (.raised c) →
    s.sampled.rst = false → s.sampled.rspReady = true →
    ∃ t u, step s = .next t ∧ step { s with out := some (.ok v) } = .next u ∧
      t.slot = .empty ∧ t.rspValid = false ∧ t.transcript = s.transcript ++ [(q, .raised c)] ∧
      t = { u with transcript := s.transcript ++ [(q, .raised c)] })

/-! ### The unit and its ports -/

/-- A step runs the decoded instruction: at the edge at which the latency of the accepted request runs
out, with reset low, step is `exec` of the decoded instruction on the state whose input levels of this
edge are consumed; a reserved opcode takes `IllegalOp` there. That a step is a clock edge, and that an operation
acts at the edge its response becomes valid, is the model's choice (log entries 1, 3 and 13). -/
def Obligations.StepRunsTheDecodedInstruction : Prop :=
  ∀ (s : State) (q : Request), s.slot = .busy q → s.out = none → s.wait ≤ 1 → s.sampled.rst = false →
    (∀ i, decode q = .ok i → step s = exec i s.afterSample) ∧
    (∀ e, decode q = .error e → step s = raise .illegalOp s.afterSample)

/-- The frame of every instruction, and 00_scope.md's level of description: the response is a function of
the instruction alone, `exec` drives it on the response port and changes nothing else. That driving the
response is the whole effect at that edge is the model's choice of step (log entries 1 and 6).
It is said of every number in the syntax: for one that its field cannot carry, the model's choice (log entry 18). -/
def Obligations.ExecOnlyDrivesAResponseOfItsOperands : Prop :=
  ∀ i : Instr, ∃ r : Response, ∀ s : State, ∃ t, exec i s = .next t ∧ t.out = some r ∧ t.wait = 0 ∧
    t.slot = s.slot ∧ t.latGiven = s.latGiven ∧ t.inputs = s.inputs ∧ t.transcript = s.transcript

/-- No request word and no input levels stop the unit (30_encoding.md, The opcode map: no encoding whose
behaviour is undefined). That a condition is a next state and no stop of the unit: log entry 6. -/
def Obligations.NoEdgeStopsTheUnit : Prop :=
  ∀ s : State, ∃ t, step s = .next t

/-- 20_memory.md, No memory; the ports: the request transfer, and that nothing else reacts to a presented
request. That the transfer sets `wait` to the latency is the model's choice (log entry 3); the inputs and
the record are the host's side, the model's own fields (log entries 4 and 5). -/
def Obligations.RequestIsCapturedOnlyWhenTheSlotIsEmpty : Prop :=
  (∀ s : State, s.reqReady = true ↔ s.slot = .empty) ∧
  (∀ s : State, s.sampled.rst = false → s.slot = .empty → s.sampled.reqValid = true →
    ∃ t, step s = .next t ∧ t.slot = .busy s.sampled.req ∧ t.out = none ∧ t.reqReady = false ∧
      t.wait = latency s.latGiven s.sampled.req.op ∧ t.transcript = s.transcript ∧ t.inputs = s.inputs.tail ∧
      t.latGiven = s.latGiven) ∧
  (∀ s : State, s.sampled.rst = false → s.slot = .empty → s.sampled.reqValid = false → step s = .next s.afterSample) ∧
  (∀ (s : State) (q : Request) (p p' : PortInputs) (rest : List PortInputs), s.slot = .busy q →
    p.rst = p'.rst → p.rspReady = p'.rspReady →
    step { s with inputs := p :: rest } = step { s with inputs := p' :: rest }) ∧
  (∀ (s t : State) (q : Request), s.slot = .busy q → step s = .next t → t.slot = .busy q ∨ t.slot = .empty)

/-- 20_memory.md, No memory; the ports: the response of an accepted request becomes valid `LAT(q.OP)` edges
after its transfer, is held unchanged, for ever if need be, until an edge with `rsp_ready = 1`, and is
transferred there. The clauses on `wait` rest on the model's counter (log entry 3) and on a wait of 0 being
due (log entry 13); a run longer than its inputs has an idle host (log entry 4); the record is the model's
own field (log entry 5). -/
def Obligations.ResponseIsHeldUntilTaken : Prop :=
  (∀ s : State, s.slot = .empty → s.sampled.rst = false → s.sampled.reqValid = true →
    (∀ p ∈ s.inputs, p.rst = false) → ∃ t, step s = .next t ∧
      (∀ j, j < latency s.latGiven s.sampled.req.op → ∃ u, Host.Core.run Sys2Proof.core j t = .next u ∧ u.rspValid = false) ∧
      ∃ u, Host.Core.run Sys2Proof.core (latency s.latGiven s.sampled.req.op) t = .next u ∧
        u.rspValid = true ∧ u.rsp = some (respondWord s.sampled.req)) ∧
  (∀ (s : State) (q : Request), s.slot = .busy q → s.out = none → s.sampled.rst = false → 1 < s.wait →
    step s = .next s.afterSample.countDown) ∧
  (∀ (s : State) (q : Request), s.slot = .busy q → s.out = none → s.sampled.rst = false → s.wait ≤ 1 →
    step s = .next (s.afterSample.drive (respond q))) ∧
  (∀ (s : State) (q : Request) (r : Response), s.slot = .busy q → s.out = some r → s.sampled.rst = false →
    s.sampled.rspReady = true → ∃ t, step s = .next t ∧ t.slot = .empty ∧ t.rspValid = false ∧ t.reqReady = true ∧
      t.transcript = s.transcript ++ [(q, r)] ∧ t.inputs = s.inputs.tail ∧ t.latGiven = s.latGiven) ∧
  (∀ (k : Nat) (s : State) (q : Request) (r : Response), s.slot = .busy q → s.out = some r →
    (∀ p ∈ s.inputs, p.rst = false ∧ p.rspReady = false) →
    ∃ t, Host.Core.run Sys2Proof.core k s = .next t ∧ t.slot = .busy q ∧ t.out = some r ∧ t.transcript = s.transcript)

/-- R24: the slot is written by the request transfer, by the response transfer and by reset, and by
nothing else. -/
def Obligations.SlotIsWrittenOnlyByTransfersAndReset : Prop :=
  ∀ s t : State, step s = .next t → t.slot ≠ s.slot →
    (s.sampled.rst = true ∧ t.slot = .empty) ∨
    (s.sampled.rst = false ∧ s.slot = .empty ∧ s.sampled.reqValid = true ∧ t.slot = .busy s.sampled.req) ∨
    (∃ q r, s.sampled.rst = false ∧ s.slot = .busy q ∧ s.out = some r ∧ s.sampled.rspReady = true ∧ t.slot = .empty)

/-- 10_state.md and 70_reset_and_hazards.md, Reset: the reset state. The last clause is the model's choice: where
the spec leaves `rsp` unspecified (U5 of 93_implementation_defined.md) the model has no value (log entry 7). -/
def Obligations.ResetStateIsIdle : Prop :=
  State.reset.slot = .empty ∧ State.reset.reqReady = true ∧ State.reset.rspValid = false ∧ State.reset.rsp = none

/-- R200, R202: an edge with `rst = 1` empties the slot from every state, whatever the other pins are,
with no transfer; the request in flight is dropped and no response to it is recorded. The inputs and the
record are the host's side, the model's own fields (log entries 4 and 5). -/
def Obligations.ResetEdgeDropsTheRequest : Prop :=
  ∀ s : State, s.sampled.rst = true → ∃ t, step s = .next t ∧ t.slot = .empty ∧ t.out = none ∧
    t.rspValid = false ∧ t.reqReady = true ∧ t.transcript = s.transcript ∧ t.inputs = s.inputs.tail ∧
    t.latGiven = s.latGiven

/-- The invariant of the unit and its ports: from every coherent state, whatever the host drives, the next
state is coherent (20_memory.md sections 1 and 4, 70_reset_and_hazards.md, Timing). The counter `wait` and
the record `transcript` it speaks of are the model's own fields (log entries 3 and 5). -/
def Obligations.EveryEdgeKeepsCoherence : Prop :=
  ∀ s t : State, s.Coherent → step s = .next t → t.Coherent

/-- The reset state is coherent; the model's own fields have the values of log entries 2 to 5. -/
def Obligations.ResetStateIsCoherent : Prop := State.reset.Coherent

/-- R49: over any run without reset from a coherent state with the slot EMPTY, the responses taken answer
the requests accepted, in order, each by `respond` of its own word, and at most one request is not yet
answered. The responses are read in the record `transcript`, the model's own field (log entry 5); a run longer
than its inputs has an idle host (log entry 4). -/
def Obligations.ResponsesAnswerRequestsInOrder : Prop :=
  ∀ (k : Nat) (s : State), s.Coherent → s.slot = .empty → (∀ p ∈ s.inputs, p.rst = false) →
    ∃ (t : State) (done : List Request), Host.Core.run Sys2Proof.core k s = .next t ∧
      t.transcript = s.transcript ++ done.map (fun q => (q, respond q)) ∧
      acceptedIn k s = done ++ t.inFlight

/-- What came before changes nothing (20_memory.md section 4): the same edges from a state with another
history give the same states but for that history. The history is the model's own field (log entry 5). -/
def Obligations.HistoryChangesNothing : Prop :=
  ∀ (k : Nat) (h : List (Request × Response)) (s : State), ∃ t,
    Host.Core.run Sys2Proof.core k s = .next t ∧ Host.Core.run Sys2Proof.core k (s.afterHistory h) = .next (t.afterHistory h)

/-- R209: timing depends on the opcode alone. From two states that differ only in operands, results and
history, hosts that drive the same levels but for operand fields see the same `req_ready` and `rsp_valid`
after every number of edges. The edges left and the history are the model's own fields (log entries 3 and
5); a run longer than its inputs has an idle host (log entry 4). -/
def Obligations.TimingDependsOnlyOnTheOpcode : Prop :=
  ∀ (k : Nat) (s t : State), s.SameTiming t → ∃ s' t', Host.Core.run Sys2Proof.core k s = .next s' ∧
    Host.Core.run Sys2Proof.core k t = .next t' ∧ s'.SameTiming t' ∧
    s'.rspValid = t'.rspValid ∧ s'.reqReady = t'.reqReady

/-- R211, R212: a request transferred at an edge has its response valid exactly `LAT(op)` edges later and
not before, whatever the host drives meanwhile but reset; with `rsp_ready = 1` at the next edge it is
taken there, `LAT(op) + 2` edges in all, and the unit is ready again. The record of the response is the
model's own field (log entry 5). -/
def Obligations.TransactionTakesLatencyPlusTwoEdges : Prop :=
  ∀ (s : State) (p d : PortInputs) (waits rest : List PortInputs),
    s.slot = .empty → s.inputs = p :: (waits ++ d :: rest) → p.rst = false → p.reqValid = true →
    (∀ w ∈ waits, w.rst = false) → waits.length = latency s.latGiven p.req.op →
    d.rst = false → d.rspReady = true →
    1 ≤ latency s.latGiven p.req.op ∧
    (∀ j, j < latency s.latGiven p.req.op → ∃ t, Host.Core.run Sys2Proof.core (1 + j) s = .next t ∧
      t.rspValid = false ∧ t.slot = .busy p.req) ∧
    (∃ t, Host.Core.run Sys2Proof.core (1 + latency s.latGiven p.req.op) s = .next t ∧
      t.rsp = some (respondWord p.req) ∧ t.rspValid = true) ∧
    (∃ t, Host.Core.run Sys2Proof.core (latency s.latGiven p.req.op + 2) s = .next t ∧
      t.slot = .empty ∧ t.reqReady = true ∧ t.rspValid = false ∧ t.inputs = rest ∧
      t.transcript = s.transcript ++ [(p.req, respond p.req)])

/-! ### The host's command scripts -/

/-- A script stops at its first condition with that condition and its line as the outcome, whatever lines
follow (30_encoding.md section 5; 70_reset_and_hazards.md, The host). Line numbers and the fault as the
run's outcome: log entries 6 and 11. -/
def Obligations.ScriptStopsAtTheFirstCondition : Prop :=
  ∀ (n : Nat) (before after : List Line) (l : Line) (env env' : Env) (q : Request) (c : Condition),
    runScript n before env = .next env' → l.request env' = .ok q → respond q = .raised c →
    runScript n (before ++ l :: after) env = .fault (.condition c (n + before.length))

/-- A script that ends normally keeps every value bound before it, binds one name a line, and binds no
name twice (30_encoding.md section 5); rebinding is refused by the model's choice (log entry 9). -/
def Obligations.ScriptBindsEachNameOnce : Prop :=
  ∀ (n : Nat) (lines : List Line) (env env' : Env), (env.map Prod.fst).Nodup →
    runScript n lines env = .next env' →
    env <+: env' ∧ env'.map Prod.fst = env.map Prod.fst ++ lines.map Line.name ∧ (env'.map Prod.fst).Nodup

/-- R76: the pseudo-operations are one real line each and give the source's constants. -/
def Obligations.PseudoOperationsGiveTheConstants : Prop :=
  ∀ env : Env,
    Command.instr env .zero = .ok (.fromn 0) ∧ respond (encode (.fromn 0)) = .ok .zero ∧
    Command.instr env .one = .ok (.fromn 1) ∧ respond (encode (.fromn 1)) = .ok .one ∧
    Command.instr env .allOnes = .ok (.froml 0xFFFF 0xFFFF 0xFFFF 0xFFFF) ∧
    respond (encode (.froml 0xFFFF 0xFFFF 0xFFFF 0xFFFF)) = .ok .allOnes64
end

