-- ==== Sys2Proof/Laws/Decoding.lean ====
section
/-! SUPPORT. What the decoder reads, one lemma per opcode, and what it refuses. -/

namespace Sys2Proof

set_option Elab.async false

/-! What the decoder reads, opcode by opcode (30_encoding.md R66, R74). -/

theorem decode_froml {q : Request} (h : q.op = 0x10#8) :
    decode q = .ok (.froml (q.rawLimb 0) (q.rawLimb 1) (q.rawLimb 2) (q.rawLimb 3)) := by
  simp only [decode, h]

theorem decode_fromn {q : Request} (h : q.op = 0x11#8) :
    decode q = .ok (.fromn q.native) := by
  simp only [decode, h]

theorem decode_tol {q : Request} (h : q.op = 0x12#8) :
    decode q = .ok (.tol q.valueA) := by
  simp only [decode, h]

theorem decode_cmpeq {q : Request} (h : q.op = 0x13#8) :
    decode q = .ok (.cmpeq q.valueA q.valueB) := by
  simp only [decode, h]

theorem decode_fromb {q : Request} (h : q.op = 0x20#8) :
    decode q = .ok (.fromb q.native (q.lane 0) (q.lane 1) (q.lane 2) (q.lane 3)
      (q.lane 4) (q.lane 5) (q.lane 6) (q.lane 7)) := by
  simp only [decode, h]

theorem decode_tob {q : Request} (h : q.op = 0x21#8) :
    decode q = .ok (.tob q.valueA) := by
  simp only [decode, h]

theorem decode_add {q : Request} (h : q.op = 0x30#8) :
    decode q = .ok (.add q.valueA q.valueB) := by
  simp only [decode, h]

theorem decode_adds {q : Request} (h : q.op = 0x31#8) :
    decode q = .ok (.adds q.valueA q.native) := by
  simp only [decode, h]

theorem decode_muls {q : Request} (h : q.op = 0x32#8) :
    decode q = .ok (.muls q.valueA q.native) := by
  simp only [decode, h]

theorem decode_mul {q : Request} (h : q.op = 0x33#8) :
    decode q = .ok (.mul q.valueA q.valueB) := by
  simp only [decode, h]

theorem decode_rotl {q : Request} (h : q.op = 0x40#8) :
    decode q = .ok (.rotl q.valueA q.amount) := by
  simp only [decode, h]

theorem decode_rotr {q : Request} (h : q.op = 0x41#8) :
    decode q = .ok (.rotr q.valueA q.amount) := by
  simp only [decode, h]

theorem decode_shl {q : Request} (h : q.op = 0x42#8) :
    decode q = .ok (.shl q.valueA q.amount) := by
  simp only [decode, h]

theorem decode_shr {q : Request} (h : q.op = 0x43#8) :
    decode q = .ok (.shr q.valueA q.amount) := by
  simp only [decode, h]

/-- The decoder refuses exactly the reserved opcodes (30_encoding.md R68). -/
theorem decode_reserved {q : Request} (h : q.op ∉ definedOpcodes) : decode q = .error (.reservedOpcode q.op) := by
  unfold decode
  split <;> first
    | rfl
    | (rename_i hop; simp [hop, definedOpcodes] at h)

theorem decode_defined {q : Request} (h : q.op ∈ definedOpcodes) : ∃ i, decode q = .ok i := by
  simp only [definedOpcodes, List.mem_cons, List.not_mem_nil, or_false] at h
  rcases h with h | h | h | h | h | h | h | h | h | h | h | h | h | h
  · exact ⟨_, decode_froml h⟩
  · exact ⟨_, decode_fromn h⟩
  · exact ⟨_, decode_tol h⟩
  · exact ⟨_, decode_cmpeq h⟩
  · exact ⟨_, decode_fromb h⟩
  · exact ⟨_, decode_tob h⟩
  · exact ⟨_, decode_add h⟩
  · exact ⟨_, decode_adds h⟩
  · exact ⟨_, decode_muls h⟩
  · exact ⟨_, decode_mul h⟩
  · exact ⟨_, decode_rotl h⟩
  · exact ⟨_, decode_rotr h⟩
  · exact ⟨_, decode_shl h⟩
  · exact ⟨_, decode_shr h⟩

end Sys2Proof
end

