-- ==== Sys2Proof/Laws/Values.lean ====
section
/-! SUPPORT. The small lemmas of the value's views and of the datapaths' shared recurrence. -/

namespace Sys2Proof

theorem Int64Value.ext_toNat {a b : Int64Value} (h0 : a.limb0.toNat = b.limb0.toNat)
    (h1 : a.limb1.toNat = b.limb1.toNat) (h2 : a.limb2.toNat = b.limb2.toNat)
    (h3 : a.limb3.toNat = b.limb3.toNat) : a = b := by
  cases a; cases b
  simp only [Int64Value.mk.injEq]
  exact ⟨BitVec.eq_of_toNat_eq h0, BitVec.eq_of_toNat_eq h1, BitVec.eq_of_toNat_eq h2, BitVec.eq_of_toNat_eq h3⟩

/-- A 16-bit lane of a natural, by arithmetic. -/
theorem and_0xFFFF (v : Nat) : v &&& 0xFFFF = v % 65536 := Nat.and_two_pow_sub_one_eq_mod v 16

@[simp] theorem Int64Value.limbs_limb0 (v : Nat) : (limbs v).limb0.toNat = v / 2 ^ 48 % 65536 := by
  simp [limbs, and_0xFFFF, Nat.shiftRight_eq_div_pow]

@[simp] theorem Int64Value.limbs_limb1 (v : Nat) : (limbs v).limb1.toNat = v / 2 ^ 32 % 65536 := by
  simp [limbs, and_0xFFFF, Nat.shiftRight_eq_div_pow]

@[simp] theorem Int64Value.limbs_limb2 (v : Nat) : (limbs v).limb2.toNat = v / 2 ^ 16 % 65536 := by
  simp [limbs, and_0xFFFF, Nat.shiftRight_eq_div_pow]

@[simp] theorem Int64Value.limbs_limb3 (v : Nat) : (limbs v).limb3.toNat = v % 65536 := by
  simp [limbs, and_0xFFFF]

/-- Two values with the same `val` are the same value (10_state.md R33). -/
theorem Int64Value.eq_of_val_eq {a b : Int64Value} (h : a.val = b.val) : a = b := by
  have := a.limb0.isLt; have := a.limb1.isLt; have := a.limb2.isLt; have := a.limb3.isLt
  have := b.limb0.isLt; have := b.limb1.isLt; have := b.limb2.isLt; have := b.limb3.isLt
  unfold val at h
  apply ext_toNat <;> omega

/-- Concatenation by arithmetic. -/
theorem toNat_append_add {m n : Nat} (x : BitVec m) (y : BitVec n) :
    (x ++ y).toNat = x.toNat * 2 ^ n + y.toNat := by
  rw [BitVec.toNat_append, Nat.shiftLeft_eq, Nat.mul_comm, ← Nat.two_pow_add_eq_or_of_lt y.isLt]

/-- A field of a word by arithmetic. -/
theorem toNat_field {m : Nat} (x : BitVec m) (start len : Nat) :
    (x.extractLsb' start len).toNat = x.toNat / 2 ^ start % 2 ^ len := by
  rw [BitVec.extractLsb'_toNat, Nat.shiftRight_eq_div_pow]

/-- The bit-vector view by arithmetic. -/
theorem Int64Value.toBits_toNat (a : Int64Value) : a.toBits.toNat =
    a.limb0.toNat * 2 ^ 48 + a.limb1.toNat * 2 ^ 32 + a.limb2.toNat * 2 ^ 16 + a.limb3.toNat := by
  simp only [toBits, BitVec.toNat_cast, toNat_append_add]
  omega

@[simp] theorem Int64Value.ofBits_toBits (a : Int64Value) : ofBits a.toBits = a := by
  have := a.limb0.isLt; have := a.limb1.isLt; have := a.limb2.isLt; have := a.limb3.isLt
  apply ext_toNat <;> simp only [ofBits, toNat_field, toBits_toNat] <;> omega

@[simp] theorem Int64Value.toBits_ofBits (v : BitVec 64) : (ofBits v).toBits = v := by
  apply BitVec.eq_of_toNat_eq
  simp only [toBits_toNat, ofBits, toNat_field]
  omega

namespace Machine

/-- All the shared carry recurrence can do: the value is the weighted sum of the columns modulo 2^64. -/
theorem Columns.value_val (c : Columns) :
    c.value.val = (c.c0 + c.c1 * 2 ^ 16 + c.c2 * 2 ^ 32 + c.c3 * 2 ^ 48) % 2 ^ 64 := by
  simp only [Int64Value.val, Columns.value, Columns.accumulate, BitVec.toNat_ofNat]
  omega

@[simp] theorem rotateAmount_lt (n : Int) : rotateAmount n < 64 := by
  unfold rotateAmount Config.rotateModulus; omega

theorem rotateAmount_emod (n : Int) : rotateAmount (n % 64) = rotateAmount n := by
  unfold rotateAmount Config.rotateModulus; omega

end Machine

end Sys2Proof
end

