-- ==== Sys2Proof/Laws/Encoding.lean ====
section
/-! SUPPORT. The fields of a packed word, one lemma per field, and the words by arithmetic. -/

namespace Sys2Proof

/-- A request word by arithmetic (30_encoding.md R60). -/
theorem packRequest_toNat (op : BitVec 8) (imm : BitVec 32) (a b : BitVec 64) :
    (packRequest op imm a b).toNat = op.toNat * 2 ^ 160 + imm.toNat * 2 ^ 128 + a.toNat * 2 ^ 64 + b.toNat := by
  simp only [packRequest, BitVec.toNat_cast, toNat_append_add]
  omega

@[simp] theorem packRequest_op (op : BitVec 8) (imm : BitVec 32) (a b : BitVec 64) :
    (packRequest op imm a b).op = op := by
  have := op.isLt; have := imm.isLt; have := a.isLt; have := b.isLt
  apply BitVec.eq_of_toNat_eq
  simp only [Request.op, toNat_field, packRequest_toNat]
  omega

@[simp] theorem packRequest_imm (op : BitVec 8) (imm : BitVec 32) (a b : BitVec 64) :
    (packRequest op imm a b).imm = imm := by
  have := op.isLt; have := imm.isLt; have := a.isLt; have := b.isLt
  apply BitVec.eq_of_toNat_eq
  simp only [Request.imm, toNat_field, packRequest_toNat]
  omega

@[simp] theorem packRequest_fieldA (op : BitVec 8) (imm : BitVec 32) (a b : BitVec 64) :
    (packRequest op imm a b).fieldA = a := by
  have := op.isLt; have := imm.isLt; have := a.isLt; have := b.isLt
  apply BitVec.eq_of_toNat_eq
  simp only [Request.fieldA, toNat_field, packRequest_toNat]
  omega

@[simp] theorem packRequest_fieldB (op : BitVec 8) (imm : BitVec 32) (a b : BitVec 64) :
    (packRequest op imm a b).fieldB = b := by
  have := op.isLt; have := imm.isLt; have := a.isLt; have := b.isLt
  apply BitVec.eq_of_toNat_eq
  simp only [Request.fieldB, toNat_field, packRequest_toNat]
  omega

/-- Two raw limbs in a field, by arithmetic (30_encoding.md R64). -/
theorem packRawLimbs_toNat {x y : Nat} (hx : FitsU32 x) (hy : FitsU32 y) :
    (packRawLimbs x y).toNat = x * 2 ^ 32 + y := by
  simp only [packRawLimbs, BitVec.toNat_cast, toNat_append_add, BitVec.toNat_ofNat]
  omega

/-- Eight byte lanes in a field, by arithmetic (30_encoding.md R65). -/
theorem packLanes_toNat (d0 d1 d2 d3 d4 d5 d6 d7 : Byte) : (packLanes d0 d1 d2 d3 d4 d5 d6 d7).toNat =
    d0.toNat * 2 ^ 56 + d1.toNat * 2 ^ 48 + d2.toNat * 2 ^ 40 + d3.toNat * 2 ^ 32 + d4.toNat * 2 ^ 24
      + d5.toNat * 2 ^ 16 + d6.toNat * 2 ^ 8 + d7.toNat := by
  simp only [packLanes, BitVec.toNat_cast, toNat_append_add]
  omega

/-- A raw limb is half of field `A` or of field `B` (30_encoding.md R64). -/
theorem rawLimb_0 (q : Request) : q.rawLimb 0 = q.fieldA.toNat / 2 ^ 32 := by
  have := q.isLt
  simp only [Request.rawLimb, Request.fieldA, toNat_field, Fin.val_zero]
  omega

theorem rawLimb_1 (q : Request) : q.rawLimb 1 = q.fieldA.toNat % 2 ^ 32 := by
  simp only [Request.rawLimb, Request.fieldA, toNat_field, Fin.val_one]
  omega

theorem rawLimb_2 (q : Request) : q.rawLimb 2 = q.fieldB.toNat / 2 ^ 32 := by
  simp only [Request.rawLimb, Request.fieldB, toNat_field, Fin.val_two]
  omega

theorem rawLimb_3 (q : Request) : q.rawLimb 3 = q.fieldB.toNat % 2 ^ 32 := by
  have h3 : (3 : Fin 4).val = 3 := rfl
  simp only [Request.rawLimb, Request.fieldB, toNat_field, h3]
  omega

/-- A byte lane is a byte of field `A` (30_encoding.md R65). -/
theorem lane_eq (q : Request) (j : Fin 8) : q.lane j = q.fieldA.extractLsb' (56 - 8 * j.val) 8 := by
  apply BitVec.eq_of_toNat_eq
  simp only [Request.lane, Request.fieldA, toNat_field]
  fin_cases j <;> simp only <;> omega

end Sys2Proof
end

