-- ==== Sys2Proof/Laws/State.lean ====
section
/-! SUPPORT. One lemma per field per update of the state. -/

namespace Sys2Proof.Machine

@[simp] theorem State.afterSample_slot (s : State) : s.afterSample.slot = s.slot := rfl
@[simp] theorem State.afterSample_wait (s : State) : s.afterSample.wait = s.wait := rfl
@[simp] theorem State.afterSample_out (s : State) : s.afterSample.out = s.out := rfl
@[simp] theorem State.afterSample_latGiven (s : State) : s.afterSample.latGiven = s.latGiven := rfl
@[simp] theorem State.afterSample_inputs (s : State) : s.afterSample.inputs = s.inputs.tail := rfl
@[simp] theorem State.afterSample_transcript (s : State) : s.afterSample.transcript = s.transcript := rfl

@[simp] theorem State.accept_slot (s : State) (q : Request) : (s.accept q).slot = .busy q := rfl
@[simp] theorem State.accept_wait (s : State) (q : Request) : (s.accept q).wait = latency s.latGiven q.op := rfl
@[simp] theorem State.accept_out (s : State) (q : Request) : (s.accept q).out = none := rfl
@[simp] theorem State.accept_latGiven (s : State) (q : Request) : (s.accept q).latGiven = s.latGiven := rfl
@[simp] theorem State.accept_inputs (s : State) (q : Request) : (s.accept q).inputs = s.inputs := rfl
@[simp] theorem State.accept_transcript (s : State) (q : Request) : (s.accept q).transcript = s.transcript := rfl

@[simp] theorem State.countDown_slot (s : State) : s.countDown.slot = s.slot := rfl
@[simp] theorem State.countDown_wait (s : State) : s.countDown.wait = s.wait - 1 := rfl
@[simp] theorem State.countDown_out (s : State) : s.countDown.out = s.out := rfl
@[simp] theorem State.countDown_latGiven (s : State) : s.countDown.latGiven = s.latGiven := rfl
@[simp] theorem State.countDown_inputs (s : State) : s.countDown.inputs = s.inputs := rfl
@[simp] theorem State.countDown_transcript (s : State) : s.countDown.transcript = s.transcript := rfl

@[simp] theorem State.drive_slot (s : State) (r : Response) : (s.drive r).slot = s.slot := rfl
@[simp] theorem State.drive_wait (s : State) (r : Response) : (s.drive r).wait = 0 := rfl
@[simp] theorem State.drive_out (s : State) (r : Response) : (s.drive r).out = some r := rfl
@[simp] theorem State.drive_latGiven (s : State) (r : Response) : (s.drive r).latGiven = s.latGiven := rfl
@[simp] theorem State.drive_inputs (s : State) (r : Response) : (s.drive r).inputs = s.inputs := rfl
@[simp] theorem State.drive_transcript (s : State) (r : Response) : (s.drive r).transcript = s.transcript := rfl

@[simp] theorem State.release_slot (s : State) (q : Request) (r : Response) : (s.release q r).slot = .empty := rfl
@[simp] theorem State.release_wait (s : State) (q : Request) (r : Response) : (s.release q r).wait = 0 := rfl
@[simp] theorem State.release_out (s : State) (q : Request) (r : Response) : (s.release q r).out = none := rfl
@[simp] theorem State.release_latGiven (s : State) (q : Request) (r : Response) : (s.release q r).latGiven = s.latGiven := rfl
@[simp] theorem State.release_inputs (s : State) (q : Request) (r : Response) : (s.release q r).inputs = s.inputs := rfl
@[simp] theorem State.release_transcript (s : State) (q : Request) (r : Response) : (s.release q r).transcript = s.transcript ++ [(q, r)] := rfl

@[simp] theorem State.resetUnit_slot (s : State) : s.resetUnit.slot = .empty := rfl
@[simp] theorem State.resetUnit_wait (s : State) : s.resetUnit.wait = 0 := rfl
@[simp] theorem State.resetUnit_out (s : State) : s.resetUnit.out = none := rfl
@[simp] theorem State.resetUnit_latGiven (s : State) : s.resetUnit.latGiven = s.latGiven := rfl
@[simp] theorem State.resetUnit_inputs (s : State) : s.resetUnit.inputs = s.inputs := rfl
@[simp] theorem State.resetUnit_transcript (s : State) : s.resetUnit.transcript = s.transcript := rfl

@[simp] theorem State.withRequestDue_slot (s : State) (q : Request) : (s.withRequestDue q).slot = .busy q := rfl
@[simp] theorem State.withRequestDue_wait (s : State) (q : Request) : (s.withRequestDue q).wait = 1 := rfl
@[simp] theorem State.withRequestDue_out (s : State) (q : Request) : (s.withRequestDue q).out = none := rfl
@[simp] theorem State.withRequestDue_latGiven (s : State) (q : Request) : (s.withRequestDue q).latGiven = s.latGiven := rfl
@[simp] theorem State.withRequestDue_inputs (s : State) (q : Request) : (s.withRequestDue q).inputs = inputsWithoutReset s.inputs := rfl
@[simp] theorem State.withRequestDue_transcript (s : State) (q : Request) : (s.withRequestDue q).transcript = s.transcript := rfl

@[simp] theorem State.afterHistory_slot (h : List (Request × Response)) (s : State) : (s.afterHistory h).slot = s.slot := rfl
@[simp] theorem State.afterHistory_wait (h : List (Request × Response)) (s : State) : (s.afterHistory h).wait = s.wait := rfl
@[simp] theorem State.afterHistory_out (h : List (Request × Response)) (s : State) : (s.afterHistory h).out = s.out := rfl
@[simp] theorem State.afterHistory_latGiven (h : List (Request × Response)) (s : State) : (s.afterHistory h).latGiven = s.latGiven := rfl
@[simp] theorem State.afterHistory_inputs (h : List (Request × Response)) (s : State) : (s.afterHistory h).inputs = s.inputs := rfl
@[simp] theorem State.afterHistory_transcript (h : List (Request × Response)) (s : State) :
    (s.afterHistory h).transcript = h ++ s.transcript := rfl

end Sys2Proof.Machine
end

