-- ==== Sys2Proof/Laws/Ops.lean ====
section
/-! SUPPORT. What each shared operation can do, said once: ending a transaction, running a request, and
one clock edge. -/

namespace Sys2Proof.Machine

/-- Ending a transaction drives the response, whichever it is. -/
@[simp] theorem finish_eq (r : Response) (s : State) : finish r s = .next (s.drive r) := by
  cases r <;> rfl

/-- Every meaning drives the response of the transaction view, and does nothing else. -/
theorem exec_eq_drive (i : Instr) (s : State) : exec i s = .next (s.drive (responseTo i)) := by
  cases i with
  | froml => exact finish_eq (fromlResponse ..) s
  | fromn => exact finish_eq (fromnResponse ..) s
  | tol => exact finish_eq (tolResponse ..) s
  | cmpeq => exact finish_eq (cmpeqResponse ..) s
  | fromb => exact finish_eq (frombResponse ..) s
  | tob => exact finish_eq (tobResponse ..) s
  | add => exact finish_eq (addResponse ..) s
  | adds => exact finish_eq (addsResponse ..) s
  | muls => exact finish_eq (mulsResponse ..) s
  | mul => exact finish_eq (mulResponse ..) s
  | rotl => exact finish_eq (rotlResponse ..) s
  | rotr => exact finish_eq (rotrResponse ..) s
  | shl => exact finish_eq (shlResponse ..) s
  | shr => exact finish_eq (shrResponse ..) s

/-- Running a request drives its response. -/
@[simp] theorem runRequest_eq (q : Request) (s : State) : runRequest q s = .next (s.drive (respond q)) := by
  unfold runRequest respond
  cases decode q with
  | ok i => exact exec_eq_drive i s
  | error e => rfl

/-- A response driven is read back on the port. -/
@[simp] theorem State.drive_rspValid (s : State) (r : Response) : (s.drive r).rspValid = true := rfl

@[simp] theorem State.drive_rsp (s : State) (r : Response) : (s.drive r).rsp = some r.word := rfl

/-- Everything one rising clock edge can do (20_memory.md R42, R43; 70_reset_and_hazards.md R200). -/
theorem step_cases {s t : State} (h : step s = .next t) :
    (s.sampled.rst = true ∧ t = s.afterSample.resetUnit) ∨
    (s.sampled.rst = false ∧ s.slot = .empty ∧ s.sampled.reqValid = true ∧ t = s.afterSample.accept s.sampled.req) ∨
    (s.sampled.rst = false ∧ s.slot = .empty ∧ s.sampled.reqValid = false ∧ t = s.afterSample) ∨
    (∃ q r, s.sampled.rst = false ∧ s.slot = .busy q ∧ s.out = some r ∧ s.sampled.rspReady = true ∧
      t = s.afterSample.release q r) ∨
    (∃ q r, s.sampled.rst = false ∧ s.slot = .busy q ∧ s.out = some r ∧ s.sampled.rspReady = false ∧
      t = s.afterSample) ∨
    (∃ q, s.sampled.rst = false ∧ s.slot = .busy q ∧ s.out = none ∧ s.wait ≤ 1 ∧
      t = s.afterSample.drive (respond q)) ∨
    (∃ q, s.sampled.rst = false ∧ s.slot = .busy q ∧ s.out = none ∧ 1 < s.wait ∧ t = s.afterSample.countDown) := by
  unfold step edge edgeEmpty edgeBusy at h
  simp only [State.afterSample_slot, State.afterSample_out, State.afterSample_wait, runRequest_eq] at h
  cases hr : s.sampled.rst <;> cases hs : s.slot <;> cases ho : s.out <;> cases hv : s.sampled.reqValid <;>
    cases hy : s.sampled.rspReady <;> simp only [hr, hs, ho, hv, hy] at h <;> simp_all <;>
    (split at h <;> simp_all)

/-- A latency is positive (70_reset_and_hazards.md R211). -/
theorem latency_pos (given : List Nat) (op : BitVec 8) : 1 ≤ latency given op := Nat.le_add_left ..

/-- All a script line can give when it is not refused: the canonical word of a well-formed instruction, under
a name that nothing has bound (30_encoding.md R75). -/
theorem Line.request_ok {env : Env} {l : Line} {q : Request} (h : l.request env = .ok q) :
    Env.find env l.name = none ∧ ∃ i, l.command.instr env = .ok i ∧ i.WellFormed ∧ q = encode i := by
  unfold Line.request at h
  split at h
  · cases h
  · rename_i hn
    split at h
    · cases h
    · rename_i i hi
      split at h
      · rename_i hw
        exact ⟨by simpa using hn, i, hi, hw, by cases h; rfl⟩
      · cases h

end Sys2Proof.Machine
end

