-- ==== Sys2Proof/Laws/PerInstr.lean ====
section
/-! SUPPORT. Statements about every instruction as syntax, one lemma per constructor. -/

namespace Sys2Proof.Laws.OpcodeSelects

set_option Elab.async false

/-- The opcode alone selects the operation (30_encoding.md R66): the canonical word carries the
instruction's opcode, which is one of the fourteen, and every word with that opcode, whatever its other
fields hold, decodes to an instruction of the same opcode. -/
def Statement (i : Instr) : Prop :=
  (encode i).op = i.opcode ∧ i.opcode ∈ definedOpcodes ∧
    ∀ q : Request, q.op = i.opcode → ∃ j, decode q = .ok j ∧ j.opcode = i.opcode

theorem froml (x0 x1 x2 x3 : Nat) : Statement (.froml x0 x1 x2 x3) :=
  ⟨packRequest_op _ _ _ _, by simp [Instr.opcode, definedOpcodes], fun q h => by
    have h' : q.op = _ := h
    simp only [decode, h', Instr.opcode]
    exact ⟨_, rfl, rfl⟩⟩

theorem fromn (n : Nat) : Statement (.fromn n) :=
  ⟨packRequest_op _ _ _ _, by simp [Instr.opcode, definedOpcodes], fun q h => by
    have h' : q.op = _ := h
    simp only [decode, h', Instr.opcode]
    exact ⟨_, rfl, rfl⟩⟩

theorem tol (a : Int64Value) : Statement (.tol a) :=
  ⟨packRequest_op _ _ _ _, by simp [Instr.opcode, definedOpcodes], fun q h => by
    have h' : q.op = _ := h
    simp only [decode, h', Instr.opcode]
    exact ⟨_, rfl, rfl⟩⟩

theorem cmpeq (a b : Int64Value) : Statement (.cmpeq a b) :=
  ⟨packRequest_op _ _ _ _, by simp [Instr.opcode, definedOpcodes], fun q h => by
    have h' : q.op = _ := h
    simp only [decode, h', Instr.opcode]
    exact ⟨_, rfl, rfl⟩⟩

theorem fromb (len : Nat) (d0 d1 d2 d3 d4 d5 d6 d7 : Byte) : Statement (.fromb len d0 d1 d2 d3 d4 d5 d6 d7) :=
  ⟨packRequest_op _ _ _ _, by simp [Instr.opcode, definedOpcodes], fun q h => by
    have h' : q.op = _ := h
    simp only [decode, h', Instr.opcode]
    exact ⟨_, rfl, rfl⟩⟩

theorem tob (a : Int64Value) : Statement (.tob a) :=
  ⟨packRequest_op _ _ _ _, by simp [Instr.opcode, definedOpcodes], fun q h => by
    have h' : q.op = _ := h
    simp only [decode, h', Instr.opcode]
    exact ⟨_, rfl, rfl⟩⟩

theorem add (a b : Int64Value) : Statement (.add a b) :=
  ⟨packRequest_op _ _ _ _, by simp [Instr.opcode, definedOpcodes], fun q h => by
    have h' : q.op = _ := h
    simp only [decode, h', Instr.opcode]
    exact ⟨_, rfl, rfl⟩⟩

theorem adds (a : Int64Value) (n : Nat) : Statement (.adds a n) :=
  ⟨packRequest_op _ _ _ _, by simp [Instr.opcode, definedOpcodes], fun q h => by
    have h' : q.op = _ := h
    simp only [decode, h', Instr.opcode]
    exact ⟨_, rfl, rfl⟩⟩

theorem muls (a : Int64Value) (n : Nat) : Statement (.muls a n) :=
  ⟨packRequest_op _ _ _ _, by simp [Instr.opcode, definedOpcodes], fun q h => by
    have h' : q.op = _ := h
    simp only [decode, h', Instr.opcode]
    exact ⟨_, rfl, rfl⟩⟩

theorem mul (a b : Int64Value) : Statement (.mul a b) :=
  ⟨packRequest_op _ _ _ _, by simp [Instr.opcode, definedOpcodes], fun q h => by
    have h' : q.op = _ := h
    simp only [decode, h', Instr.opcode]
    exact ⟨_, rfl, rfl⟩⟩

theorem rotl (a : Int64Value) (n : Int) : Statement (.rotl a n) :=
  ⟨packRequest_op _ _ _ _, by simp [Instr.opcode, definedOpcodes], fun q h => by
    have h' : q.op = _ := h
    simp only [decode, h', Instr.opcode]
    exact ⟨_, rfl, rfl⟩⟩

theorem rotr (a : Int64Value) (n : Int) : Statement (.rotr a n) :=
  ⟨packRequest_op _ _ _ _, by simp [Instr.opcode, definedOpcodes], fun q h => by
    have h' : q.op = _ := h
    simp only [decode, h', Instr.opcode]
    exact ⟨_, rfl, rfl⟩⟩

theorem shl (a : Int64Value) (n : Int) : Statement (.shl a n) :=
  ⟨packRequest_op _ _ _ _, by simp [Instr.opcode, definedOpcodes], fun q h => by
    have h' : q.op = _ := h
    simp only [decode, h', Instr.opcode]
    exact ⟨_, rfl, rfl⟩⟩

theorem shr (a : Int64Value) (n : Int) : Statement (.shr a n) :=
  ⟨packRequest_op _ _ _ _, by simp [Instr.opcode, definedOpcodes], fun q h => by
    have h' : q.op = _ := h
    simp only [decode, h', Instr.opcode]
    exact ⟨_, rfl, rfl⟩⟩

end Sys2Proof.Laws.OpcodeSelects
end

