-- ==== Sys2Proof/Tests/Slice0.lean ====
section
/-! SUPPORT. The model's own tests, each about one operation or one clock edge; expected words are those of
95_test_vectors.md, named by its line. After them, for every statement with hypotheses, a witness: concrete
states and operands that meet them. -/

namespace Sys2Proof.Tests

open Sys2Proof.Machine

/-! ### WellFormed refuses an operand its field cannot carry -/

theorem test_wf_froml_x0 : Instr.wellFormed (.froml (2 ^ 32) 0 0 0) = false := by decide
theorem test_wf_froml_x1 : Instr.wellFormed (.froml 0 (2 ^ 32) 0 0) = false := by decide
theorem test_wf_froml_x2 : Instr.wellFormed (.froml 0 0 (2 ^ 32) 0) = false := by decide
theorem test_wf_froml_x3 : Instr.wellFormed (.froml 0 0 0 (2 ^ 32)) = false := by decide
theorem test_wf_fromn : Instr.wellFormed (.fromn (2 ^ 32)) = false := by decide
theorem test_wf_fromb : Instr.wellFormed (.fromb (2 ^ 32) 0 0 0 0 0 0 0 0) = false := by decide
theorem test_wf_adds : Instr.wellFormed (.adds .zero (2 ^ 32)) = false := by decide
theorem test_wf_muls : Instr.wellFormed (.muls .zero (2 ^ 32)) = false := by decide
theorem test_wf_rotl_high : Instr.wellFormed (.rotl .zero (2 ^ 31)) = false := by decide
theorem test_wf_rotl_low : Instr.wellFormed (.rotl .zero (-2 ^ 31 - 1)) = false := by decide
theorem test_wf_rotr_high : Instr.wellFormed (.rotr .zero (2 ^ 31)) = false := by decide
theorem test_wf_rotr_low : Instr.wellFormed (.rotr .zero (-2 ^ 31 - 1)) = false := by decide
theorem test_wf_shl_high : Instr.wellFormed (.shl .zero (2 ^ 31)) = false := by decide
theorem test_wf_shl_low : Instr.wellFormed (.shl .zero (-2 ^ 31 - 1)) = false := by decide
theorem test_wf_shr_high : Instr.wellFormed (.shr .zero (2 ^ 31)) = false := by decide
theorem test_wf_shr_low : Instr.wellFormed (.shr .zero (-2 ^ 31 - 1)) = false := by decide

/-! ### Decoding: a word of the spec for every constructor -/

/-- The running operand of 95_test_vectors.md, section 2. -/
def a0 : Int64Value := ⟨0x0123, 0x4567, 0x89AB, 0xCDEF⟩

/-- K1. -/
theorem test_decode_froml : decode 0x10000000000000012300004567000089AB0000CDEF#168
    = .ok (.froml 0x123 0x4567 0x89AB 0xCDEF) := by decide
/-- K3. -/
theorem test_decode_fromn : decode 0x111234567800000000000000000000000000000000#168 = .ok (.fromn 0x12345678) := by decide
/-- K4. -/
theorem test_decode_tol : decode 0x12000000000123456789ABCDEF0000000000000000#168 = .ok (.tol a0) := by decide
/-- K6: the two value fields in order. -/
theorem test_decode_cmpeq : decode 0x13000000000123456789ABCDEF0123456789ABCDEE#168
    = .ok (.cmpeq a0 ⟨0x0123, 0x4567, 0x89AB, 0xCDEE⟩) := by decide
/-- B3: the length and the lanes. -/
theorem test_decode_fromb : decode 0x20000000070123456789ABCDEF0000000000000000#168
    = .ok (.fromb 7 0x01 0x23 0x45 0x67 0x89 0xAB 0xCD 0xEF) := by decide
/-- B2. -/
theorem test_decode_tob : decode 0x21000000000123456789ABCDEF0000000000000000#168 = .ok (.tob a0) := by decide
/-- A6. -/
theorem test_decode_add : decode 0x3000000000123456789ABCDEF0FEDCBA9876543210#168
    = .ok (.add ⟨0x1234, 0x5678, 0x9ABC, 0xDEF0⟩ ⟨0xFEDC, 0xBA98, 0x7654, 0x3210⟩) := by decide
/-- AS3. -/
theorem test_decode_adds : decode 0x31000100000123456789ABCDEF0000000000000000#168 = .ok (.adds a0 0x10000) := by decide
/-- M8. -/
theorem test_decode_muls : decode 0x32DEADBEEF0123456789ABCDEF0000000000000000#168 = .ok (.muls a0 0xDEADBEEF) := by decide
/-- X6. -/
theorem test_decode_mul : decode 0x33000000000123456789ABCDEFFEDCBA9876543210#168
    = .ok (.mul a0 ⟨0xFEDC, 0xBA98, 0x7654, 0x3210⟩) := by decide
/-- RL17: the smallest amount. -/
theorem test_decode_rotl : decode 0x40800000000123456789ABCDEF0000000000000000#168 = .ok (.rotl a0 (-2147483648)) := by decide
/-- RR14: a negative amount. -/
theorem test_decode_rotr : decode 0x41FFFFFFF00123456789ABCDEF0000000000000000#168 = .ok (.rotr a0 (-16)) := by decide
/-- SL15: the largest amount. -/
theorem test_decode_shl : decode 0x427FFFFFFF0123456789ABCDEF0000000000000000#168 = .ok (.shl a0 2147483647) := by decide
/-- S7. -/
theorem test_decode_shr : decode 0x430000001A00000003696874000000000000000000#168 = .ok (.shr ⟨0, 3, 26984, 29696⟩ 26) := by decide
/-- Z1, Z8: reserved opcodes, by name. -/
theorem test_decode_reserved : decode 0#168 = .error (.reservedOpcode 0x00) ∧
    decode (BitVec.allOnes 168) = .error (.reservedOpcode 0xFF) := by decide
/-- Z12: an ignored field is not looked at. -/
theorem test_decode_ignores : decode 0x40000000100123456789ABCDEFFFFFFFFFFFFFFFFF#168 = .ok (.rotl a0 16) := by decide
/-- P6 line 2, as its transport bytes; twenty bytes are no request word. -/
theorem test_decode_bytes :
    decodeBytes [0x42, 0, 0, 0, 0x41, 0, 0, 0, 0, 0, 0, 0, 1, 0, 0, 0, 0, 0, 0, 0, 0] = .ok (.shl .one 65) ∧
    decodeBytes [0x42, 0, 0, 0, 0x41, 0, 0, 0, 0, 0, 0, 0, 1, 0, 0, 0, 0, 0, 0, 0] = .error (.wrongLength 20) := by decide
theorem test_table_word : decodeTableWord 168 0x31000100000123456789ABCDEF0000000000000000 = some (.adds a0 0x10000) ∧
    decodeTableWord 168 0x44000000010123456789ABCDEF0000000000000000 = none := by decide
/-- SL13: the encoder writes the canonical word. -/
theorem test_encode : encode (.shl a0 65) = 0x42000000410123456789ABCDEF0000000000000000#168 := by decide

/-! ### One step of each instruction, as the first one after reset -/

/-- The response word driven after the one step that runs the word `w`. -/
def answer (w : Nat) : Option ResponseWord :=
  match step (State.reset.withFetchWord 168 w) with
  | .next t => t.rsp
  | .fault _ => none
  | .refused _ => none

/-- K1. -/
theorem test_froml : answer 0x10000000000000012300004567000089AB0000CDEF = some 0x000123456789ABCDEF#72 := by decide
/-- K2f: not truncated. -/
theorem test_froml_invalid : answer 0x10000000008000FFFF000000000000000000000000 = some 0x020000000000000000#72 := by decide
/-- K3. -/
theorem test_fromn : answer 0x111234567800000000000000000000000000000000 = some 0x000000000012345678#72 := by decide
/-- Z10. -/
theorem test_tol : answer 0x12555555550123456789ABCDEFFFFFFFFFFFFFFFFF = some 0x000123456789ABCDEF#72 := by decide
/-- K5. -/
theorem test_cmpeq_equal : answer 0x13000000000123456789ABCDEF0123456789ABCDEF = some 0x000000000000000001#72 := by decide
/-- K7: bit 15 of limb 0. -/
theorem test_cmpeq_differ : answer 0x13000000000123456789ABCDEF8123456789ABCDEF = some 0x000000000000000000#72 := by decide
/-- S1. -/
theorem test_fromb : answer 0x20000000080123456789ABCDEF0000000000000000 = some 0x000123456789ABCDEF#72 := by decide
/-- B4: one byte long. -/
theorem test_fromb_invalid : answer 0x20000000090123456789ABCDEF0000000000000000 = some 0x010000000000000000#72 := by decide
/-- B2. -/
theorem test_tob : answer 0x21000000000123456789ABCDEF0000000000000000 = some 0x000123456789ABCDEF#72 := by decide
/-- A2: a carry out of every limb. -/
theorem test_add_wraps : answer 0x3000000000FFFFFFFFFFFFFFFFFFFFFFFFFFFFFFFF = some 0x00FFFFFFFFFFFFFFFE#72 := by decide
/-- A5: the carry ripples through three limbs. -/
theorem test_add_ripple : answer 0x30000000000000FFFFFFFFFFFF0000000000000001 = some 0x000001000000000000#72 := by decide
/-- AS4. -/
theorem test_adds : answer 0x310000000100000000FFFFFFFF0000000000000000 = some 0x000000000100000000#72 := by decide
/-- AS6. -/
theorem test_adds_wraps : answer 0x31FFFFFFFFFFFFFFFFFFFFFFFF0000000000000000 = some 0x0000000000FFFFFFFE#72 := by decide
/-- M4: the widest accumulator. -/
theorem test_muls_wide : answer 0x32FFFFFFFFFFFFFFFFFFFFFFFF0000000000000000 = some 0x00FFFFFFFF00000001#72 := by decide
/-- M8. -/
theorem test_muls : answer 0x32DEADBEEF0123456789ABCDEF0000000000000000 = some 0x00EDCBA98676BFA421#72 := by decide
/-- X3: the widest columns. -/
theorem test_mul_wide : answer 0x3300000000FFFFFFFFFFFFFFFFFFFFFFFFFFFFFFFF = some 0x000000000000000001#72 := by decide
/-- X6. -/
theorem test_mul : answer 0x33000000000123456789ABCDEFFEDCBA9876543210 = some 0x002236D88FE5618CF0#72 := by decide
/-- RL14: an amount of -1. -/
theorem test_rotl_negative : answer 0x40FFFFFFFF0123456789ABCDEF0000000000000000 = some 0x008091A2B3C4D5E6F7#72 := by decide
/-- RL12: an amount of 100. -/
theorem test_rotl_reduced : answer 0x40000000640123456789ABCDEF0000000000000000 = some 0x009ABCDEF012345678#72 := by decide
/-- S6. -/
theorem test_rotr : answer 0x410000001F00010000000000000000000000000000 = some 0x000000000000020000#72 := by decide
/-- RR11: an amount of 64. -/
theorem test_rotr_zero : answer 0x41000000400123456789ABCDEF0000000000000000 = some 0x000123456789ABCDEF#72 := by decide
/-- SL11: an amount of 64 is inside the contract. -/
theorem test_shl_64 : answer 0x42000000400123456789ABCDEF0000000000000000 = some 0x000000000000000000#72 := by decide
/-- SL13: an amount of 65 is not. -/
theorem test_shl_invalid : answer 0x42000000410123456789ABCDEF0000000000000000 = some 0x030000000000000000#72 := by decide
/-- SR15: logical, not arithmetic. -/
theorem test_shr_logical : answer 0x430000003FFFFFFFFFFFFFFFFF0000000000000000 = some 0x000000000000000001#72 := by decide
/-- SR18: an amount of -1. -/
theorem test_shr_invalid : answer 0x43FFFFFFFF0123456789ABCDEF0000000000000000 = some 0x030000000000000000#72 := by decide
/-- Z4. -/
theorem test_illegal_op : answer 0x44000000010123456789ABCDEF0000000000000000 = some 0x040000000000000000#72 := by decide

/-! ### One clock edge: the illustration of 95_test_vectors.md, section 2.12, with `LAT(0x30) = 2` -/

/-- `q1` of section 2.12, the request word of S2. -/
def q1 : Request := 0x3000000000000000000000000100000000FFFFFFFF#168

/-- `q2` of section 2.12, the request word of SL13. -/
def q2 : Request := 0x42000000410123456789ABCDEF0000000000000000#168

/-- `LAT(op) = 2` for the opcode values up to 0x43. -/
def lat2 : List Nat := List.replicate 68 1

/-- The pins with a request presented. -/
def presenting (q : Request) : PortInputs := ⟨false, true, q, false⟩

/-- The pins with the host ready for a response. -/
def taking : PortInputs := ⟨false, false, 0, true⟩

/-- The pins with reset driven over everything else. -/
def resetting : PortInputs := ⟨true, true, q2, true⟩

/-- A state with the slot EMPTY and `LAT = 2`. -/
def idle2 (inputs : List PortInputs) : State := ⟨.empty, 0, none, lat2, inputs, []⟩

/-- A state with `q` in flight, `wait` edges before its response. -/
def waiting2 (q : Request) (wait : Nat) (inputs : List PortInputs) : State := ⟨.busy q, wait, none, lat2, inputs, []⟩

/-- A state with the response `r` to `q` valid. -/
def valid2 (q : Request) (r : Response) (inputs : List PortInputs) : State := ⟨.busy q, 0, some r, lat2, inputs, []⟩

/-- One edge, `none` where it stops. -/
def next (s : State) : Option State :=
  match step s with
  | .next t => some t
  | .fault _ => none
  | .refused _ => none

/-- The result of S2. -/
def r1 : Response := .ok ⟨0, 1, 0, 0⟩

/-- Edge 2: the request transfer. -/
theorem test_edge_accept : next (idle2 [presenting q1]) = some (waiting2 q1 2 []) := by decide
/-- Edge 3: nothing, whatever `req` carries. -/
theorem test_edge_wait : next (waiting2 q1 2 [presenting q2]) = some (waiting2 q1 1 []) := by decide
/-- Edge 4: the response becomes valid. -/
theorem test_edge_valid : next (waiting2 q1 1 []) = some (valid2 q1 r1 []) := by decide
/-- Edge 5: the response is held. -/
theorem test_edge_hold : next (valid2 q1 r1 [presenting q2]) = some (valid2 q1 r1 []) := by decide
/-- Edge 6: the response transfer. -/
theorem test_edge_release : next (valid2 q1 r1 [taking]) = some { idle2 [] with transcript := [(q1, r1)] } := by decide
/-- H6: reset drops the request, with no transfer at its edge. -/
theorem test_edge_reset : next (valid2 q1 r1 [resetting]) = some (idle2 []) ∧ next (idle2 [resetting]) = some (idle2 []) := by decide
/-- H4: no response without a request. -/
theorem test_edge_idle : next (idle2 [taking]) = some (idle2 []) := by decide

/-! ### Scripts -/

/-- P6: the shift by 65 at line 2 stops the script. -/
theorem test_script_stops : (match runScript 1 [⟨"x", .one⟩, ⟨"y", .shl (.name "x") 65⟩, ⟨"z", .add (.name "x") (.name "x")⟩] [] with
    | .fault e => some e
    | .next _ => none
    | .refused _ => none) = some (.condition .invalidAmount 2) := by decide
/-- P4, lines 1 to 3. -/
theorem test_script_binds : (match runScript 1 [⟨"x", .froml 1 0 0 0⟩, ⟨"r", .rotr (.name "x") 31⟩, ⟨"l", .rotl (.name "r") 31⟩] [] with
    | .next env => some env
    | .fault _ => none
    | .refused _ => none) = some [("x", ⟨1, 0, 0, 0⟩), ("r", ⟨0, 0, 2, 0⟩), ("l", ⟨1, 0, 0, 0⟩)] := by decide
theorem test_script_refuses : Line.request [] ⟨"x", .tol (.name "y")⟩ = .error (.unboundName "y") ∧
    Line.request [("x", .zero)] ⟨"x", .zero⟩ = .error (.reboundName "x") ∧
    Line.request [] ⟨"x", .fromn (2 ^ 32)⟩ = .error (.literalOutOfRange "x") := by decide

/-! ### Witnesses: concrete inputs that meet the hypotheses of each statement, clause by clause -/

/-- The all-ones request word with another opcode: every operand field at its largest. -/
def onesWith (op : BitVec 8) : Request := packRequest op (BitVec.allOnes 32) (BitVec.allOnes 64) (BitVec.allOnes 64)

theorem witness_ValAndLimbsAreInverse : 2 ^ 64 - 1 < 2 ^ 64 := by decide
theorem witness_LimbsOfNativeKeepTheNative : 2 ^ 32 - 1 < 2 ^ 32 := by decide
theorem witness_DecodeInvertsEncodeAndIgnoresUnreadFields :
    Instr.WellFormed (.froml (2 ^ 32 - 1) 0 0 (2 ^ 32 - 1)) ∧ Instr.WellFormed (.rotr a0 (-2 ^ 31)) ∧
    Instr.WellFormed (.shl a0 (2 ^ 31 - 1)) ∧ Instr.WellFormed (.fromb (2 ^ 32 - 1) 0 0 0 0 0 0 0 0) ∧
    decode q1 = .ok (.add .one ⟨0, 0, 0xFFFF, 0xFFFF⟩) ∧
    (0x30DEADBEEF000000000000000100000000FFFFFFFF#168 ≠ q1 ∧
      Request.canonical 0x30DEADBEEF000000000000000100000000FFFFFFFF#168 = Request.canonical q1) := by decide
theorem witness_ReservedOpcodesAreIllegal :
    (0xFF#8 ∉ definedOpcodes ∧ 0x44#8 ∉ definedOpcodes) ∧
    ((idle2 [presenting 0]).slot = .empty ∧ (idle2 [presenting 0]).sampled.rst = false ∧
      (idle2 [presenting 0]).sampled.reqValid = true ∧ (idle2 [presenting 0]).sampled.req.op ∉ definedOpcodes) ∧
    ((waiting2 0 1 []).slot = .busy 0 ∧ (waiting2 0 1 []).out = none ∧ (waiting2 0 1 []).wait ≤ 1 ∧
      (waiting2 0 1 []).sampled.rst = false ∧ Request.op 0 ∉ definedOpcodes) := by decide
theorem witness_ResponseWordsCarryStatusAndResult : 0 < 8 ∧ 7 < 8 := by decide
theorem witness_WordsTravelMostSignificantByteFirst : 0 < 21 ∧ 20 < 21 ∧ 0 < 9 ∧ 8 < 9 := by decide
theorem witness_FromlBuildsOrRejects : (onesWith 0x10).op = 0x10#8 ∧
    (0xFFFF ≤ 0xFFFF ∧ 0 ≤ 0xFFFF) ∧ (0xFFFF < 0x10000 ∧ 0xFFFF < 2 ^ 32 - 1) := by decide
theorem witness_FromnDecomposesTheNative : (onesWith 0x11).op = 0x11#8 ∧ 2 ^ 32 - 1 < 2 ^ 32 := by decide
theorem witness_TolReturnsItsOperand : (onesWith 0x12).op = 0x12#8 := by decide
theorem witness_CmpeqComparesLimbsPairwise : (onesWith 0x13).op = 0x13#8 ∧
    (a0.limb0 = a0.limb0 ∧ a0.limb1 = a0.limb1 ∧ a0.limb2 = a0.limb2 ∧ a0.limb3 = a0.limb3) ∧
    ¬(Int64Value.zero.limb0 = Int64Value.one.limb0 ∧ Int64Value.zero.limb1 = Int64Value.one.limb1 ∧
      Int64Value.zero.limb2 = Int64Value.one.limb2 ∧ Int64Value.zero.limb3 = Int64Value.one.limb3) := by decide
theorem witness_FrombReadsExactlyEightBytes : (onesWith 0x20).op = 0x20#8 ∧ (7 ≠ 8 ∧ 9 ≠ 8) ∧
    (Request.op 0x20000000080123456789ABCDEF0000000000000000#168 = 0x20#8 ∧
      BitVec.extractLsb' 128 32 0x20000000080123456789ABCDEF0000000000000000#168 = 8) := by decide
theorem witness_TobReturnsEightBigEndianBytes : (onesWith 0x21).op = 0x21#8 := by decide
theorem witness_ArithmeticIsModulo2To64 : 2 ^ 32 - 1 < 2 ^ 32 := by decide
theorem witness_AddPropagatesTheLimbCarry : (onesWith 0x30).op = 0x30#8 := by decide
theorem witness_AddsAddsTheNativesLimbs : (onesWith 0x31).op = 0x31#8 ∧ 2 ^ 32 - 1 < 2 ^ 32 := by decide
theorem witness_MulsAccumulatesIn48Bits : (onesWith 0x32).op = 0x32#8 ∧ 2 ^ 32 - 1 < 2 ^ 32 := by decide
theorem witness_MulAccumulatesTenPartialProducts : (onesWith 0x33).op = 0x33#8 := by decide
theorem witness_ArithmeticLaws : 2 ^ 32 - 1 < 2 ^ 32 := by decide
theorem witness_RotlRotatesTheWordLeft : (onesWith 0x40).op = 0x40#8 ∧ (-64 : Int) % 64 = 0 ∧ (-1 : Int) % 64 ≠ 0 := by decide
theorem witness_RotrRotatesTheWordRight : (onesWith 0x41).op = 0x41#8 ∧ (64 : Int) % 64 = 0 ∧ (65 : Int) % 64 ≠ 0 := by decide
theorem witness_ShlShiftsLeftOrRejects : (onesWith 0x42).op = 0x42#8 ∧
    ((-1 : Int) < 0 ∨ (64 : Int) < -1) ∧ ((65 : Int) < 0 ∨ (64 : Int) < 65) ∧
    ((0 : Int) ≤ 0 ∧ (0 : Int) ≤ 64) ∧ ((0 : Int) ≤ 64 ∧ (64 : Int) ≤ 64) := by decide
theorem witness_ShrShiftsRightOrRejects : (onesWith 0x43).op = 0x43#8 ∧
    ((-1 : Int) < 0 ∨ (64 : Int) < -1) ∧ ((65 : Int) < 0 ∨ (64 : Int) < 65) ∧
    ((0 : Int) ≤ 0 ∧ (0 : Int) ≤ 64) ∧ ((0 : Int) ≤ 64 ∧ (64 : Int) ≤ 64) := by decide
theorem witness_LimbLevelShifterEqualsTheWordLevel : 0 < 64 ∧ 63 < 64 := by decide
theorem witness_RotationLaws : ((-1 : Int) + 65) % 64 = 0 := by decide
theorem witness_ShiftLaws : ((0 : Int) ≤ 64 ∧ (64 : Int) ≤ 64) ∧ ((1 : Int) ≤ 63 ∧ (63 : Int) ≤ 63) := by decide
theorem witness_ConditionsAreRaisedExactlyAsListed :
    (respondWord q2).extractLsb' 64 8 ≠ 0x00 ∧ (respondWord q1).extractLsb' 64 8 = 0x00 := by decide
theorem witness_ConditionCompletesLikeAResult :
    ((waiting2 q2 1 []).slot = .busy q2 ∧ (waiting2 q2 1 []).out = none ∧ (waiting2 q2 1 []).wait ≤ 1 ∧
      (waiting2 q2 1 []).sampled.rst = false ∧ respond q2 = .raised .invalidAmount) ∧
    ((valid2 q2 (.raised .invalidAmount) []).sampled.rst = false ∧
      (valid2 q2 (.raised .invalidAmount) []).sampled.rspReady = false) ∧
    ((valid2 q2 (.raised .invalidAmount) [taking]).slot = .busy q2 ∧
      (valid2 q2 (.raised .invalidAmount) [taking]).out = some (.raised .invalidAmount) ∧
      (valid2 q2 (.raised .invalidAmount) [taking]).sampled.rst = false ∧
      (valid2 q2 (.raised .invalidAmount) [taking]).sampled.rspReady = true) := by decide
theorem witness_StepRunsTheDecodedInstruction :
    ((waiting2 q2 1 []).slot = .busy q2 ∧ (waiting2 q2 1 []).out = none ∧ (waiting2 q2 1 []).wait ≤ 1 ∧
      (waiting2 q2 1 []).sampled.rst = false ∧ decode q2 = .ok (.shl a0 65)) ∧
    ((waiting2 0 1 []).slot = .busy 0 ∧ (waiting2 0 1 []).out = none ∧ (waiting2 0 1 []).wait ≤ 1 ∧
      (waiting2 0 1 []).sampled.rst = false ∧ decode 0 = .error (.reservedOpcode 0)) := by decide
theorem witness_RequestIsCapturedOnlyWhenTheSlotIsEmpty :
    ((idle2 [presenting q1]).sampled.rst = false ∧ (idle2 [presenting q1]).slot = .empty ∧
      (idle2 [presenting q1]).sampled.reqValid = true) ∧
    ((idle2 [taking]).sampled.rst = false ∧ (idle2 [taking]).sampled.reqValid = false) ∧
    ((waiting2 q1 2 []).slot = .busy q1 ∧ presenting q1 ≠ presenting q2 ∧ (presenting q1).rst = (presenting q2).rst ∧
      (presenting q1).rspReady = (presenting q2).rspReady) ∧
    (next (waiting2 q1 2 []) = some (waiting2 q1 1 [])) := by decide
theorem witness_ResponseIsHeldUntilTaken :
    ((idle2 [presenting q1]).slot = .empty ∧ (idle2 [presenting q1]).sampled.rst = false ∧
      (idle2 [presenting q1]).sampled.reqValid = true ∧ (∀ p ∈ (idle2 [presenting q1]).inputs, p.rst = false)) ∧
    ((waiting2 q1 2 []).slot = .busy q1 ∧ (waiting2 q1 2 []).out = none ∧ (waiting2 q1 2 []).sampled.rst = false ∧
      1 < (waiting2 q1 2 []).wait) ∧
    ((waiting2 q1 1 []).slot = .busy q1 ∧ (waiting2 q1 1 []).out = none ∧ (waiting2 q1 1 []).sampled.rst = false ∧
      (waiting2 q1 1 []).wait ≤ 1) ∧
    ((valid2 q1 r1 [taking]).slot = .busy q1 ∧ (valid2 q1 r1 [taking]).out = some r1 ∧
      (valid2 q1 r1 [taking]).sampled.rst = false ∧ (valid2 q1 r1 [taking]).sampled.rspReady = true) ∧
    (∀ p ∈ (valid2 q1 r1 [presenting q2]).inputs, p.rst = false ∧ p.rspReady = false) := by decide
theorem witness_SlotIsWrittenOnlyByTransfersAndReset :
    (next (idle2 [presenting q1]) = some (waiting2 q1 2 []) ∧ (waiting2 q1 2 []).slot ≠ (idle2 [presenting q1]).slot) ∧
    (next (valid2 q1 r1 [resetting]) = some (idle2 []) ∧ (idle2 []).slot ≠ (valid2 q1 r1 [resetting]).slot) := by decide
theorem witness_ResetEdgeDropsTheRequest : (valid2 q1 r1 [resetting]).sampled.rst = true := by decide

/-- A coherent state with a response valid. -/
theorem valid2_coherent : (valid2 q1 r1 []).Coherent where
  idle h := by simp [valid2] at h
  driven r h := ⟨rfl, q1, rfl, by simp only [valid2, Option.some.injEq] at h; subst h; decide⟩
  waiting q _ h := by simp [valid2] at h
  answered q r h := by simp [valid2] at h

theorem witness_EveryEdgeKeepsCoherence : (valid2 q1 r1 []).Coherent ∧ step (valid2 q1 r1 []) = .next (valid2 q1 r1 []) :=
  ⟨valid2_coherent, rfl⟩

theorem witness_ResponsesAnswerRequestsInOrder : (idle2 [presenting q1, taking]).Coherent ∧
    (idle2 [presenting q1, taking]).slot = .empty ∧ (∀ p ∈ (idle2 [presenting q1, taking]).inputs, p.rst = false) :=
  ⟨⟨fun _ => ⟨rfl, rfl⟩, fun r h => by simp [idle2] at h, fun q h => by simp [idle2] at h,
    fun q r h => by simp [idle2] at h⟩, rfl, by decide⟩

/-- The same opcode with other operands, another response and another history. -/
theorem witness_TimingDependsOnlyOnTheOpcode :
    (valid2 q1 r1 [presenting q1]).SameTiming
      { valid2 (onesWith 0x30) (.ok .zero) [presenting (onesWith 0x30)] with transcript := [(q2, .raised .invalidAmount)] } :=
  ⟨by decide, rfl, rfl, rfl, by decide⟩

theorem witness_TransactionTakesLatencyPlusTwoEdges :
    (idle2 [presenting q1, presenting q2, taking, taking]).inputs = presenting q1 :: ([presenting q2, taking] ++ taking :: []) ∧
    (idle2 [presenting q1, presenting q2, taking, taking]).slot = .empty ∧
    (presenting q1).rst = false ∧ (presenting q1).reqValid = true ∧
    (∀ w ∈ [presenting q2, taking], w.rst = false) ∧
    [presenting q2, taking].length = latency (idle2 [presenting q1, presenting q2, taking, taking]).latGiven (presenting q1).req.op ∧
    taking.rst = false ∧ taking.rspReady = true := by decide

theorem witness_ScriptStopsAtTheFirstCondition :
    runScript 1 [⟨"x", .one⟩] [] = .next [("x", .one)] ∧
    Line.request [("x", .one)] ⟨"y", .shl (.name "x") 65⟩ = .ok (encode (.shl .one 65)) ∧
    respond (encode (.shl .one 65)) = .raised .invalidAmount :=
  ⟨rfl, by decide, by decide⟩

theorem witness_ScriptBindsEachNameOnce : (([("w", Int64Value.zero)] : Env).map Prod.fst).Nodup ∧
    runScript 1 [⟨"x", .one⟩] [("w", .zero)] = .next [("w", .zero), ("x", .one)] :=
  ⟨by decide, rfl⟩

end Sys2Proof.Tests
end

section
/-! PROOFS. `val` and `limbs` as inverse maps between the values and `0 .. 2^64-1` (00_scope.md R14, 10_state.md R20). -/

namespace Sys2Proof

namespace Int64Value

/-- Four 16-bit digits stay below the base's fourth power. -/
theorem val_lt (a : Int64Value) : a.val < 2 ^ 64 := by
  have := a.limb0.isLt; have := a.limb1.isLt; have := a.limb2.isLt; have := a.limb3.isLt
  unfold val
  omega

/-- For every natural: `limbs` keeps the low 64 bits. -/
@[simp] theorem val_limbs (v : Nat) : (limbs v).val = v % 2 ^ 64 := by
  simp only [val, limbs_limb0, limbs_limb1, limbs_limb2, limbs_limb3]
  omega

theorem val_limbs_of_lt {v : Nat} (h : v < 2 ^ 64) : (limbs v).val = v := by
  rw [val_limbs, Nat.mod_eq_of_lt h]

/-- The other inverse: `val` is injective, and `limbs a.val` has the value of `a`. -/
@[simp] theorem limbs_val (a : Int64Value) : limbs a.val = a :=
  eq_of_val_eq (val_limbs_of_lt a.val_lt)

/-- The limbs of R14 as a shift and a mask, from their arithmetic forms. -/
theorem limbs_toNat_eq_mask (v : Nat) :
    (limbs v).limb0.toNat = (v >>> 48) &&& 0xFFFF ∧ (limbs v).limb1.toNat = (v >>> 32) &&& 0xFFFF ∧
    (limbs v).limb2.toNat = (v >>> 16) &&& 0xFFFF ∧ (limbs v).limb3.toNat = v &&& 0xFFFF := by
  simp only [and_0xFFFF, Nat.shiftRight_eq_div_pow, limbs_limb0, limbs_limb1, limbs_limb2, limbs_limb3, and_self]

end Int64Value

/-- Settles O1: the two inverses come from `val_limbs` (reduction modulo 2^64) and the injectivity of `val`;
the constants are evaluated. -/
theorem valAndLimbsAreInverse : Obligations.ValAndLimbsAreInverse := by
  refine ⟨fun a => ⟨rfl, a.val_lt, a.limbs_val⟩, fun v hv => ⟨Int64Value.val_limbs_of_lt hv, ?_⟩, ?_⟩
  · exact Int64Value.limbs_toNat_eq_mask v
  · decide

end Sys2Proof
end

section
/-! PROOFS. The word view and the byte view of a value (10_state.md R22). -/

namespace Sys2Proof

/-- A 16-bit field is its two bytes, the high one first. -/
theorem toNat_field16_eq_bytes {m : Nat} (x : BitVec m) (start : Nat) :
    (x.extractLsb' start 16).toNat =
      (x.extractLsb' (start + 8) 8).toNat * 256 + (x.extractLsb' start 8).toNat := by
  simp only [toNat_field, Nat.pow_add, ← Nat.div_div_eq_div_mul]
  omega

namespace Int64Value

/-- The limbs are the four 16-bit fields of the word view, limb 0 highest. -/
theorem extractLsb'_toBits (a : Int64Value) :
    a.toBits.extractLsb' 48 16 = a.limb0 ∧ a.toBits.extractLsb' 32 16 = a.limb1 ∧
    a.toBits.extractLsb' 16 16 = a.limb2 ∧ a.toBits.extractLsb' 0 16 = a.limb3 :=
  have h := a.ofBits_toBits
  ⟨congrArg limb0 h, congrArg limb1 h, congrArg limb2 h, congrArg limb3 h⟩

theorem toBits_toNat_eq_val (a : Int64Value) : a.toBits.toNat = a.val := a.toBits_toNat

/-- Each limb is its two bytes of the byte view, the high one first. -/
theorem limbs_toNat_eq_bytes (a : Int64Value) :
    a.limb0.toNat = (a.byte 0).toNat * 256 + (a.byte 1).toNat ∧
    a.limb1.toNat = (a.byte 2).toNat * 256 + (a.byte 3).toNat ∧
    a.limb2.toNat = (a.byte 4).toNat * 256 + (a.byte 5).toNat ∧
    a.limb3.toNat = (a.byte 6).toNat * 256 + (a.byte 7).toNat := by
  obtain ⟨h0, h1, h2, h3⟩ := a.extractLsb'_toBits
  rw [← h0, ← h1, ← h2, ← h3]
  exact ⟨toNat_field16_eq_bytes _ 48, toNat_field16_eq_bytes _ 32, toNat_field16_eq_bytes _ 16,
    toNat_field16_eq_bytes _ 0⟩

end Int64Value

/-- Settles O2: the fields of the word view are the limbs because `ofBits` reads back what `toBits` packs, and
every 16-bit field of the word is two neighbouring bytes. -/
theorem bitAndByteViewsAreBigEndian : Obligations.BitAndByteViewsAreBigEndian := by
  intro a
  obtain ⟨h0, h1, h2, h3⟩ := a.extractLsb'_toBits
  exact ⟨h0, h1, h2, h3, a.toBits_toNat_eq_val, fun _ => rfl, a.limbs_toNat_eq_bytes⟩

end Sys2Proof
end

section
/-! PROOFS. What writes the slot (10_state.md R24). -/

namespace Sys2Proof.Machine

/-- Settles O38, over everything an edge can do (`step_cases`): reset and the two transfers are the stated
causes; an idle edge, a held response, a response becoming valid and a wait keep the slot. -/
theorem slotIsWrittenOnlyByTransfersAndReset : Obligations.SlotIsWrittenOnlyByTransfersAndReset := by
  intro s t hstep hslot
  obtain ⟨hrst, rfl⟩ | ⟨hrst, hs, hv, rfl⟩ | ⟨-, -, -, rfl⟩ | ⟨q, r, hrst, hs, ho, hy, rfl⟩ |
    ⟨_, _, -, -, -, -, rfl⟩ | ⟨_, -, -, -, -, rfl⟩ | ⟨_, -, -, -, -, rfl⟩ := step_cases hstep
  case inl => exact .inl ⟨hrst, rfl⟩
  case inr.inl => exact .inr (.inl ⟨hrst, hs, hv, rfl⟩)
  case inr.inr.inr.inl => exact .inr (.inr ⟨q, r, hrst, hs, ho, hy, rfl⟩)
  all_goals exact absurd rfl hslot

end Sys2Proof.Machine
end

section
/-! PROOFS. The transport order of the words, most significant byte first (20_memory.md R53). -/

namespace Sys2Proof

/-! ### Byte strings of words of any width -/

@[simp] theorem length_bytesOfWord {m : Nat} (n : Nat) (w : BitVec m) : (bytesOfWord n w).length = n := by
  simp [bytesOfWord]

theorem getElem?_bytesOfWord {m n k : Nat} (w : BitVec m) (hk : k < n) :
    (bytesOfWord n w)[k]? = some (w.extractLsb' (8 * (n - 1 - k)) 8) := by
  simp [bytesOfWord, hk]

theorem two_pow_eight_mul (n : Nat) : 2 ^ (8 * n) = 256 ^ n := Nat.pow_mul 2 8 n

/-- The first byte is the most significant one; the others are the bytes of the rest. -/
theorem bytesOfWord_succ {m : Nat} (n : Nat) (w : BitVec m) :
    bytesOfWord (n + 1) w = w.extractLsb' (8 * n) 8 :: bytesOfWord n w := by
  simp [bytesOfWord, List.range_succ_eq_map, Nat.sub_sub, Nat.add_comm]

/-- Reading `n` bytes after bytes of value `acc`: Horner's scheme in base 256. -/
theorem foldl_bytesOfWord {m : Nat} (w : BitVec m) (n acc : Nat) :
    (bytesOfWord n w).foldl (fun acc b => acc * 256 + b.toNat) acc = acc * 256 ^ n + w.toNat % 256 ^ n := by
  induction n generalizing acc with
  | zero => simp [bytesOfWord, Nat.mod_one]
  | succ n ih =>
    have hbyte : (w.extractLsb' (8 * n) 8).toNat = w.toNat / 256 ^ n % 256 := by
      rw [toNat_field, two_pow_eight_mul]
      rfl
    rw [bytesOfWord_succ, List.foldl_cons, ih, hbyte, Nat.mod_pow_succ]
    ring

/-- The big-endian number of a word's `n` low bytes. -/
theorem natOfBytes_bytesOfWord {m : Nat} (n : Nat) (w : BitVec m) :
    natOfBytes (bytesOfWord n w) = w.toNat % 256 ^ n := by
  simpa [natOfBytes] using foldl_bytesOfWord w n 0

/-- Joining the bytes gives the word back when there are enough of them to cover it. -/
theorem ofNat_natOfBytes_bytesOfWord {m n : Nat} (w : BitVec m) (h : m ≤ 8 * n) :
    BitVec.ofNat m (natOfBytes (bytesOfWord n w)) = w := by
  have hlt : w.toNat < 256 ^ n :=
    calc w.toNat < 2 ^ m := w.isLt
      _ ≤ 2 ^ (8 * n) := Nat.pow_le_pow_right (by decide) h
      _ = 256 ^ n := two_pow_eight_mul n
  rw [natOfBytes_bytesOfWord, Nat.mod_eq_of_lt hlt, BitVec.ofNat_toNat, BitVec.setWidth_eq]

/-! ### Request words and response words -/

@[simp] theorem length_requestBytes (q : Request) : (requestBytes q).length = 21 := length_bytesOfWord 21 q

theorem getElem?_requestBytes {k : Nat} (q : Request) (hk : k < 21) :
    (requestBytes q)[k]? = some (q.extractLsb' (160 - 8 * k) 8) := by
  have hpos : 8 * (21 - 1 - k) = 160 - 8 * k := by omega
  rw [requestBytes, getElem?_bytesOfWord q hk, hpos]

@[simp] theorem requestOfBytes_requestBytes (q : Request) : requestOfBytes (requestBytes q) = q :=
  ofNat_natOfBytes_bytesOfWord q (by decide)

@[simp] theorem decodeBytes_requestBytes (q : Request) : decodeBytes (requestBytes q) = decode q := by
  rw [decodeBytes, if_pos (length_requestBytes q), requestOfBytes_requestBytes]

namespace Machine

@[simp] theorem length_responseBytes (w : ResponseWord) : (responseBytes w).length = 9 := length_bytesOfWord 9 w

theorem getElem?_responseBytes {k : Nat} (w : ResponseWord) (hk : k < 9) :
    (responseBytes w)[k]? = some (w.extractLsb' (64 - 8 * k) 8) := by
  have hpos : 8 * (9 - 1 - k) = 64 - 8 * k := by omega
  rw [responseBytes, getElem?_bytesOfWord w hk, hpos]

@[simp] theorem responseWordOfBytes_responseBytes (w : ResponseWord) :
    responseWordOfBytes (responseBytes w) = w :=
  ofNat_natOfBytes_bytesOfWord w (by decide)

/-- Settles O8: both words travel as the byte string of a word (`bytesOfWord`), whose big-endian number is the word
again by induction on the number of bytes (`foldl_bytesOfWord`). -/
theorem wordsTravelMostSignificantByteFirst : Obligations.WordsTravelMostSignificantByteFirst :=
  ⟨fun q => ⟨length_requestBytes q, fun _ => getElem?_requestBytes q, requestOfBytes_requestBytes q,
      decodeBytes_requestBytes q⟩,
    fun w => ⟨length_responseBytes w, fun _ => getElem?_responseBytes w, responseWordOfBytes_responseBytes w⟩⟩

end Machine

end Sys2Proof
end

section
/-! PROOFS. Responses answer requests, in order (20_memory.md R49): what one edge adds to the host's record,
composed over a run. -/

namespace Sys2Proof.Machine

/-! ### One edge: it never stops the unit, and consumes one entry of the inputs -/

theorem edgeEmpty_total (p : PortInputs) (s : State) : ∃ t, edgeEmpty p s = .next t := by
  unfold edgeEmpty
  split
  · exact ⟨_, rfl⟩
  · exact ⟨_, rfl⟩

theorem edgeBusy_total (p : PortInputs) (q : Request) (s : State) : ∃ t, edgeBusy p q s = .next t := by
  unfold edgeBusy
  split
  · split
    · exact ⟨_, rfl⟩
    · exact ⟨_, rfl⟩
  · split
    · exact ⟨_, runRequest_eq q s⟩
    · exact ⟨_, rfl⟩

theorem step_total (s : State) : ∃ t, step s = .next t := by
  unfold step edge
  split
  · exact ⟨_, rfl⟩
  · split
    · exact edgeEmpty_total _ _
    · exact edgeBusy_total _ _ _

theorem step_inputs {s t : State} (h : step s = .next t) : t.inputs = s.inputs.tail := by
  obtain ⟨-, rfl⟩ | ⟨-, -, -, rfl⟩ | ⟨-, -, -, rfl⟩ | ⟨_, _, -, -, -, -, rfl⟩ | ⟨_, _, -, -, -, -, rfl⟩ |
    ⟨_, -, -, -, -, rfl⟩ | ⟨_, -, -, -, -, rfl⟩ := step_cases h
  all_goals rfl

/-- A host that drives no reset drives none at the next edge, be it an idle one after the last input. -/
theorem sampled_rst_of_noReset {s : State} (h : ∀ p ∈ s.inputs, p.rst = false) : s.sampled.rst = false := by
  unfold State.sampled
  cases hin : s.inputs with
  | nil => rfl
  | cons p ps => exact h p (by simp [hin])

theorem step_noReset {s t : State} (hstep : step s = .next t) (h : ∀ p ∈ s.inputs, p.rst = false) :
    ∀ p ∈ t.inputs, p.rst = false := by
  rw [step_inputs hstep]
  exact fun p hp => h p (List.mem_of_mem_tail hp)

/-- A run takes its first edge first. -/
theorem run_succ_of_step {s t : State} (k : Nat) (h : step s = .next t) :
    Host.Core.run core (k + 1) s = Host.Core.run core k t := by
  have h' : core.step s = .next t := h
  simp only [Host.Core.run, h']

/-! ### The request in flight and the request accepted -/

theorem State.inFlight_of_empty {s : State} (h : s.slot = .empty) : s.inFlight = [] := by
  rw [inFlight, h]

theorem State.inFlight_of_busy {s : State} {q : Request} (h : s.slot = .busy q) : s.inFlight = [q] := by
  rw [inFlight, h]

/-- The request word accepted at the next edge, as a list: the head of `acceptedIn` (`acceptedIn_succ`). -/
def State.acceptedNow (s : State) : List Request :=
  if s.sampled.rst = false ∧ s.slot = .empty ∧ s.sampled.reqValid = true then [s.sampled.req] else []

theorem acceptedIn_succ {s t : State} (k : Nat) (h : step s = .next t) :
    acceptedIn (k + 1) s = s.acceptedNow ++ acceptedIn k t := by
  rw [acceptedIn, h, State.acceptedNow]

theorem State.acceptedNow_of_transfer {s : State} (hrst : s.sampled.rst = false) (hs : s.slot = .empty)
    (hv : s.sampled.reqValid = true) : s.acceptedNow = [s.sampled.req] :=
  if_pos ⟨hrst, hs, hv⟩

theorem State.acceptedNow_of_not_reqValid {s : State} (hv : s.sampled.reqValid = false) : s.acceptedNow = [] := by
  simp [acceptedNow, hv]

theorem State.acceptedNow_of_busy {s : State} {q : Request} (hs : s.slot = .busy q) : s.acceptedNow = [] := by
  simp [acceptedNow, hs]

/-! ### The response driven is the slot's own -/

/-- The part of coherence that R49 rests on: a response driven is that of the request in the slot. -/
def State.DrivesOwnResponse (s : State) : Prop :=
  ∀ q r, s.slot = .busy q → s.out = some r → r = respond q

theorem State.Coherent.drivesOwnResponse {s : State} (h : s.Coherent) : s.DrivesOwnResponse := by
  intro q r hs ho
  obtain ⟨-, q', hs', hr⟩ := h.driven r ho
  rw [hs, Slot.busy.injEq] at hs'
  rw [hr, hs']

theorem State.drivesOwnResponse_of_out_none {s : State} (h : s.out = none) : s.DrivesOwnResponse := by
  intro q r _ ho
  rw [h] at ho
  cases ho

theorem step_drivesOwnResponse {s t : State} (hstep : step s = .next t) (h : s.DrivesOwnResponse) :
    t.DrivesOwnResponse := by
  obtain ⟨-, rfl⟩ | ⟨-, -, -, rfl⟩ | ⟨-, -, -, rfl⟩ | ⟨_, _, -, -, -, -, rfl⟩ | ⟨_, _, -, -, -, -, rfl⟩ |
    ⟨q, -, hs, -, -, rfl⟩ | ⟨_, -, -, ho, -, rfl⟩ := step_cases hstep
  case inr.inr.inl | inr.inr.inr.inr.inl => exact h
  case inr.inr.inr.inr.inr.inl =>
    intro q' r hs' ho'
    have hq : q = q' := by simpa [hs] using hs'
    have hr : respond q = r := by simpa using ho'
    rw [← hr, hq]
  case inr.inr.inr.inr.inr.inr => exact State.drivesOwnResponse_of_out_none ho
  all_goals exact State.drivesOwnResponse_of_out_none rfl

/-! ### From one state to a later one: responses in the order of the requests -/

/-- Between `s` and `t` the requests `accepted` came in, and the record has grown by the responses, each to its
own word, of the request in flight at `s` and of `accepted`, in order, all but what is in flight at `t`. -/
def AnswersInOrder (s t : State) (accepted : List Request) : Prop :=
  ∃ done : List Request, t.transcript = s.transcript ++ done.map (fun q => (q, respond q)) ∧
    s.inFlight ++ accepted = done ++ t.inFlight

theorem AnswersInOrder.refl (s : State) : AnswersInOrder s s [] :=
  ⟨[], by simp, by simp⟩

theorem AnswersInOrder.trans {s t u : State} {as bs : List Request} (hst : AnswersInOrder s t as)
    (htu : AnswersInOrder t u bs) : AnswersInOrder s u (as ++ bs) := by
  obtain ⟨done, hrec, hreq⟩ := hst
  obtain ⟨done', hrec', hreq'⟩ := htu
  refine ⟨done ++ done', by simp [hrec', hrec], ?_⟩
  calc s.inFlight ++ (as ++ bs) = (s.inFlight ++ as) ++ bs := (List.append_assoc ..).symm
    _ = done ++ (t.inFlight ++ bs) := by rw [hreq, List.append_assoc]
    _ = (done ++ done') ++ u.inFlight := by rw [hreq', List.append_assoc]

/-- An edge without a transfer: nothing is accepted, and slot and record stay. -/
theorem AnswersInOrder.of_slot_eq {s t : State} (hslot : t.slot = s.slot) (hrec : t.transcript = s.transcript) :
    AnswersInOrder s t [] :=
  ⟨[], by simp [hrec], by simp [State.inFlight, hslot]⟩

/-- One edge without reset. The request transfer puts the accepted word in flight; the response transfer records
the response driven, which is the slot's own; every other edge leaves slot and record. -/
theorem step_answersInOrder {s t : State} (hstep : step s = .next t) (hrst : s.sampled.rst = false)
    (hown : s.DrivesOwnResponse) : AnswersInOrder s t s.acceptedNow := by
  obtain ⟨h, -⟩ | ⟨-, hs, hv, rfl⟩ | ⟨-, -, hv, rfl⟩ | ⟨q, r, -, hs, ho, -, rfl⟩ | ⟨q, _, -, hs, -, -, rfl⟩ |
    ⟨q, -, hs, -, -, rfl⟩ | ⟨q, -, hs, -, -, rfl⟩ := step_cases hstep
  case inl => simp [hrst] at h
  case inr.inl =>
    rw [State.acceptedNow_of_transfer hrst hs hv]
    exact ⟨[], by simp, by rw [State.inFlight_of_empty hs]; rfl⟩
  case inr.inr.inl =>
    rw [State.acceptedNow_of_not_reqValid hv]
    exact .of_slot_eq rfl rfl
  case inr.inr.inr.inl =>
    rw [State.acceptedNow_of_busy hs]
    exact ⟨[q], by simp [hown q r hs ho], by rw [State.inFlight_of_busy hs]; rfl⟩
  all_goals
    rw [State.acceptedNow_of_busy hs]
    exact .of_slot_eq rfl rfl

/-- A run without reset answers in order, from any state that drives its own response. -/
theorem run_answersInOrder (k : Nat) {s : State} (hown : s.DrivesOwnResponse)
    (hin : ∀ p ∈ s.inputs, p.rst = false) :
    ∃ t, Host.Core.run core k s = .next t ∧ AnswersInOrder s t (acceptedIn k s) := by
  induction k generalizing s with
  | zero => exact ⟨s, rfl, .refl s⟩
  | succ k ih =>
    obtain ⟨u, hu⟩ := step_total s
    obtain ⟨t, hrun, htail⟩ := ih (step_drivesOwnResponse hu hown) (step_noReset hu hin)
    have hhead := step_answersInOrder hu (sampled_rst_of_noReset hin) hown
    refine ⟨t, by rw [run_succ_of_step k hu, hrun], ?_⟩
    rw [acceptedIn_succ k hu]
    exact hhead.trans htail

/-- Settles O43: `run_answersInOrder` from a coherent state with nothing in flight. -/
theorem responsesAnswerRequestsInOrder : Obligations.ResponsesAnswerRequestsInOrder := by
  intro k s hcoh hslot hin
  obtain ⟨t, hrun, done, hrec, hreq⟩ := run_answersInOrder k hcoh.drivesOwnResponse hin
  rw [State.inFlight_of_empty hslot, List.nil_append] at hreq
  exact ⟨t, done, hrun, hrec, hreq⟩

end Sys2Proof.Machine
end

section
/-! PROOFS. Decoding inverts encoding, and the fields a format ignores have no effect (30_encoding.md R67). -/

namespace Sys2Proof

/-! ### The operands of a packed word -/

@[simp] theorem packRequest_valueA (op : BitVec 8) (imm : BitVec 32) (a : Int64Value) (b : BitVec 64) :
    (packRequest op imm a.toBits b).valueA = a := by
  simp [Request.valueA]

@[simp] theorem packRequest_valueB (op : BitVec 8) (imm : BitVec 32) (a : BitVec 64) (b : Int64Value) :
    (packRequest op imm a b.toBits).valueB = b := by
  simp [Request.valueB]

theorem packRequest_native {n : Nat} (hn : FitsU32 n) (op : BitVec 8) (a b : BitVec 64) :
    (packRequest op (BitVec.ofNat 32 n) a b).native = n := by
  rw [Request.native, packRequest_imm, BitVec.toNat_ofNat, Nat.mod_eq_of_lt hn]

theorem packRequest_amount {n : Int} (hn : FitsS32 n) (op : BitVec 8) (a b : BitVec 64) :
    (packRequest op (BitVec.ofInt 32 n) a b).amount = n := by
  obtain ⟨hlo, hhi⟩ := hn
  rw [Request.amount, packRequest_imm, BitVec.toInt_ofInt_eq_self (by decide) hlo hhi]

/-- The raw limbs of a word are those laid over its fields `A` and `B` (30_encoding.md R64). -/
theorem rawLimbs_of_fields {q : Request} {x0 x1 x2 x3 : Nat} (h0 : FitsU32 x0) (h1 : FitsU32 x1) (h2 : FitsU32 x2)
    (h3 : FitsU32 x3) (hA : q.fieldA = packRawLimbs x0 x1) (hB : q.fieldB = packRawLimbs x2 x3) :
    q.rawLimb 0 = x0 ∧ q.rawLimb 1 = x1 ∧ q.rawLimb 2 = x2 ∧ q.rawLimb 3 = x3 := by
  simp only [rawLimb_0, rawLimb_1, rawLimb_2, rawLimb_3, hA, hB, packRawLimbs_toNat h0 h1, packRawLimbs_toNat h2 h3]
  omega

/-- The lanes of a word are those laid over its field `A`, `D0` uppermost (30_encoding.md R65). -/
theorem lanes_of_fieldA {q : Request} {d0 d1 d2 d3 d4 d5 d6 d7 : Byte}
    (hA : q.fieldA = packLanes d0 d1 d2 d3 d4 d5 d6 d7) :
    q.lane 0 = d0 ∧ q.lane 1 = d1 ∧ q.lane 2 = d2 ∧ q.lane 3 = d3 ∧
    q.lane 4 = d4 ∧ q.lane 5 = d5 ∧ q.lane 6 = d6 ∧ q.lane 7 = d7 := by
  have := d0.isLt; have := d1.isLt; have := d2.isLt; have := d3.isLt
  have := d4.isLt; have := d5.isLt; have := d6.isLt; have := d7.isLt
  simp only [← BitVec.toNat_inj, lane_eq, hA, toNat_field, packLanes_toNat, Fin.coe_ofNat_eq_mod,
    Nat.reduceMod, Nat.reduceMul, Nat.reduceSub]
  omega

/-! ### The fields of a word from its operands -/

@[simp] theorem Request.toBits_valueA (q : Request) : q.valueA.toBits = q.fieldA := Int64Value.toBits_ofBits _

@[simp] theorem Request.toBits_valueB (q : Request) : q.valueB.toBits = q.fieldB := Int64Value.toBits_ofBits _

@[simp] theorem Request.ofNat_native (q : Request) : BitVec.ofNat 32 q.native = q.imm := by
  simp [native]

@[simp] theorem Request.ofInt_amount (q : Request) : BitVec.ofInt 32 q.amount = q.imm := by
  simp [amount]

theorem Request.fitsU32_native (q : Request) : FitsU32 q.native := q.imm.isLt

theorem Request.fitsS32_amount (q : Request) : FitsS32 q.amount :=
  ⟨BitVec.le_toInt q.imm, BitVec.toInt_lt⟩

theorem Request.fitsU32_rawLimb (q : Request) (k : Fin 4) : FitsU32 (q.rawLimb k) := BitVec.isLt _

@[simp] theorem Request.packRawLimbs_fieldA (q : Request) : packRawLimbs (q.rawLimb 0) (q.rawLimb 1) = q.fieldA := by
  apply BitVec.eq_of_toNat_eq
  rw [packRawLimbs_toNat (q.fitsU32_rawLimb 0) (q.fitsU32_rawLimb 1), rawLimb_0, rawLimb_1]
  omega

@[simp] theorem Request.packRawLimbs_fieldB (q : Request) : packRawLimbs (q.rawLimb 2) (q.rawLimb 3) = q.fieldB := by
  apply BitVec.eq_of_toNat_eq
  rw [packRawLimbs_toNat (q.fitsU32_rawLimb 2) (q.fitsU32_rawLimb 3), rawLimb_2, rawLimb_3]
  omega

@[simp] theorem Request.packLanes_fieldA (q : Request) :
    packLanes (q.lane 0) (q.lane 1) (q.lane 2) (q.lane 3) (q.lane 4) (q.lane 5) (q.lane 6) (q.lane 7) = q.fieldA := by
  have := q.fieldA.isLt
  apply BitVec.eq_of_toNat_eq
  simp only [packLanes_toNat, lane_eq, toNat_field, Fin.coe_ofNat_eq_mod, Nat.reduceMod, Nat.reduceMul, Nat.reduceSub]
  omega

/-! ### Decoding the encoding -/

theorem encode_op (i : Instr) : (encode i).op = i.opcode := by
  cases i <;> exact packRequest_op ..

/-- The encoder lays each operand in the field from which the decoder reads it. -/
theorem decode_encode {i : Instr} (h : i.WellFormed) : decode (encode i) = .ok i := by
  have hop := encode_op i
  cases i with
  | froml x0 x1 x2 x3 =>
    obtain ⟨h0, h1, h2, h3⟩ := of_decide_eq_true h
    obtain ⟨e0, e1, e2, e3⟩ := rawLimbs_of_fields h0 h1 h2 h3 (packRequest_fieldA ..) (packRequest_fieldB ..)
    rw [decode_froml hop, encode, e0, e1, e2, e3]
  | fromn n => rw [decode_fromn hop, encode, packRequest_native (of_decide_eq_true h)]
  | tol a => rw [decode_tol hop, encode, packRequest_valueA]
  | cmpeq a b => rw [decode_cmpeq hop, encode, packRequest_valueA, packRequest_valueB]
  | fromb len d0 d1 d2 d3 d4 d5 d6 d7 =>
    obtain ⟨e0, e1, e2, e3, e4, e5, e6, e7⟩ := lanes_of_fieldA (packRequest_fieldA ..)
    rw [decode_fromb hop, encode, packRequest_native (of_decide_eq_true h), e0, e1, e2, e3, e4, e5, e6, e7]
  | tob a => rw [decode_tob hop, encode, packRequest_valueA]
  | add a b => rw [decode_add hop, encode, packRequest_valueA, packRequest_valueB]
  | adds a n => rw [decode_adds hop, encode, packRequest_valueA, packRequest_native (of_decide_eq_true h)]
  | muls a n => rw [decode_muls hop, encode, packRequest_valueA, packRequest_native (of_decide_eq_true h)]
  | mul a b => rw [decode_mul hop, encode, packRequest_valueA, packRequest_valueB]
  | rotl a n => rw [decode_rotl hop, encode, packRequest_valueA, packRequest_amount (of_decide_eq_true h)]
  | rotr a n => rw [decode_rotr hop, encode, packRequest_valueA, packRequest_amount (of_decide_eq_true h)]
  | shl a n => rw [decode_shl hop, encode, packRequest_valueA, packRequest_amount (of_decide_eq_true h)]
  | shr a n => rw [decode_shr hop, encode, packRequest_valueA, packRequest_amount (of_decide_eq_true h)]

/-! ### Encoding what was decoded -/

/-- The case analysis of a decoded word: one of the fourteen rows of the opcode map, with the operands read from
the word's fields (30_encoding.md R66). -/
theorem decode_ok_cases {q : Request} {motive : ∀ i, decode q = .ok i → Prop}
    (froml : ∀ hop : q.op = 0x10#8, motive _ (decode_froml hop))
    (fromn : ∀ hop : q.op = 0x11#8, motive _ (decode_fromn hop))
    (tol : ∀ hop : q.op = 0x12#8, motive _ (decode_tol hop))
    (cmpeq : ∀ hop : q.op = 0x13#8, motive _ (decode_cmpeq hop))
    (fromb : ∀ hop : q.op = 0x20#8, motive _ (decode_fromb hop))
    (tob : ∀ hop : q.op = 0x21#8, motive _ (decode_tob hop))
    (add : ∀ hop : q.op = 0x30#8, motive _ (decode_add hop))
    (adds : ∀ hop : q.op = 0x31#8, motive _ (decode_adds hop))
    (muls : ∀ hop : q.op = 0x32#8, motive _ (decode_muls hop))
    (mul : ∀ hop : q.op = 0x33#8, motive _ (decode_mul hop))
    (rotl : ∀ hop : q.op = 0x40#8, motive _ (decode_rotl hop))
    (rotr : ∀ hop : q.op = 0x41#8, motive _ (decode_rotr hop))
    (shl : ∀ hop : q.op = 0x42#8, motive _ (decode_shl hop))
    (shr : ∀ hop : q.op = 0x43#8, motive _ (decode_shr hop))
    {i : Instr} (h : decode q = .ok i) : motive i h := by
  have row {j : Instr} {hj : decode q = .ok j} (hrow : motive j hj) : motive i h := by
    obtain rfl := Except.ok.inj (hj.symm.trans h)
    exact hrow
  have hmem : q.op ∈ definedOpcodes := by
    by_contra hres
    rw [decode_reserved hres] at h
    cases h
  simp only [definedOpcodes, List.mem_cons, List.not_mem_nil, or_false] at hmem
  rcases hmem with hop | hop | hop | hop | hop | hop | hop | hop | hop | hop | hop | hop | hop | hop
  · exact row (froml hop)
  · exact row (fromn hop)
  · exact row (tol hop)
  · exact row (cmpeq hop)
  · exact row (fromb hop)
  · exact row (tob hop)
  · exact row (add hop)
  · exact row (adds hop)
  · exact row (muls hop)
  · exact row (mul hop)
  · exact row (rotl hop)
  · exact row (rotr hop)
  · exact row (shl hop)
  · exact row (shr hop)

/-- A field as wide as the operand it carries: what is decoded fits. -/
theorem wellFormed_of_decode {q : Request} {i : Instr} (h : decode q = .ok i) : i.WellFormed := by
  cases h using decode_ok_cases with
  | froml =>
    exact decide_eq_true ⟨q.fitsU32_rawLimb 0, q.fitsU32_rawLimb 1, q.fitsU32_rawLimb 2, q.fitsU32_rawLimb 3⟩
  | tol | cmpeq | tob | add | mul => rfl
  | fromn | fromb | adds | muls => exact decide_eq_true q.fitsU32_native
  | rotl | rotr | shl | shr => exact decide_eq_true q.fitsS32_amount

/-- The canonical form, by the format of the word's opcode. -/
theorem Request.canonical_of_format {q : Request} {f : Format} (h : formatOf q.op = some f) :
    q.canonical = packRequest q.op (if f.reads.1 then q.imm else 0) (if f.reads.2.1 then q.fieldA else 0)
      (if f.reads.2.2 then q.fieldB else 0) := by
  rw [canonical, h]
  rfl

@[simp] theorem Request.canonical_op (q : Request) : q.canonical.op = q.op := packRequest_op ..

/-- The encoder writes back the fields the decoder read and zeros the others: the canonical form. -/
theorem encode_of_decode {q : Request} {i : Instr} (h : decode q = .ok i) : encode i = q.canonical := by
  cases h using decode_ok_cases with
  | froml hop | fromn hop | tol hop | cmpeq hop | fromb hop | tob hop | add hop | adds hop | muls hop | mul hop
  | rotl hop | rotr hop | shl hop | shr hop =>
    simp [encode, Request.canonical_of_format, hop, formatOf, Format.reads]

namespace Machine

theorem respond_of_decode {q : Request} {i : Instr} (h : decode q = .ok i) : respond q = responseTo i := by
  rw [respond, h]

theorem respond_reserved {q : Request} (h : q.op ∉ definedOpcodes) : respond q = .raised .illegalOp := by
  rw [respond, decode_reserved h]

theorem respond_encode {i : Instr} (h : i.WellFormed) : respond (encode i) = responseTo i :=
  respond_of_decode (decode_encode h)

/-- Ignored fields have no effect (30_encoding.md R67): words with one canonical form have one opcode, and if it
is defined they decode to one instruction, the one their canonical form encodes. -/
theorem respond_eq_of_canonical_eq {q q' : Request} (h : q.canonical = q'.canonical) : respond q = respond q' := by
  have hop : q.op = q'.op := by rw [← q.canonical_op, h, q'.canonical_op]
  by_cases hdef : q.op ∈ definedOpcodes
  · obtain ⟨i, hi⟩ := decode_defined hdef
    obtain ⟨j, hj⟩ := decode_defined (hop ▸ hdef)
    have hencode : encode i = encode j := by rw [encode_of_decode hi, h, encode_of_decode hj]
    rw [respond_of_decode hi, respond_of_decode hj, ← respond_encode (wellFormed_of_decode hi), hencode,
      respond_encode (wellFormed_of_decode hj)]
  · rw [respond_reserved hdef, respond_reserved (hop ▸ hdef)]

/-- Settles O4: the encoder lays every operand in the field the decoder reads (`decode_encode`) and, of a decoded
word, fills the other fields with zeros (`encode_of_decode`); so the canonical form determines the response. -/
theorem decodeInvertsEncodeAndIgnoresUnreadFields : Obligations.DecodeInvertsEncodeAndIgnoresUnreadFields := by
  refine ⟨fun _ => decode_encode, fun q i h => ?_, fun _ _ => respond_eq_of_canonical_eq⟩
  have hencode := encode_of_decode h
  exact ⟨wellFormed_of_decode h, hencode, by rw [hencode]⟩

end Machine

end Sys2Proof
end

section
/-! PROOFS. Which condition a request raises, and what its response word then carries (60_exceptions.md R170 to
R174, 30_encoding.md R70 to R72). -/

namespace Sys2Proof.Machine

/-! ### The fields of a response word -/

/-- `rsp[71:64]` is the status (30_encoding.md R70). -/
theorem Response.word_status (r : Response) : r.word.extractLsb' 64 8 = r.status := by
  have := r.resultBits.isLt
  apply BitVec.eq_of_toNat_eq
  simp only [toNat_field, word, BitVec.toNat_cast, toNat_append_add]
  omega

/-- `rsp[63:0]` is the result field (30_encoding.md R70). -/
theorem Response.word_resultBits (r : Response) : r.word.extractLsb' 0 64 = r.resultBits := by
  apply BitVec.eq_of_toNat_eq
  simp only [toNat_field, word, BitVec.toNat_cast, toNat_append_add]
  omega

theorem Response.status_eq_code_iff (r : Response) (c : Condition) : r.status = c.code ↔ r = .raised c := by
  cases r with
  | ok v => cases c <;> simp [status, Condition.code]
  | raised d => cases c <;> cases d <;> simp [status, Condition.code]

theorem Condition.code_ne_zero (c : Condition) : c.code ≠ 0x00 := by
  cases c <;> decide

theorem Condition.code_le (c : Condition) : c.code.toNat ≤ 0x04 := by
  cases c <;> decide

/-! ### The instructions that raise a condition -/

theorem fromlResponse_eq_raised_iff (x0 x1 x2 x3 : Nat) (c : Condition) :
    fromlResponse x0 x1 x2 x3 = .raised c ↔
      c = .invalidLimb ∧ (0xFFFF < x0 ∨ 0xFFFF < x1 ∨ 0xFFFF < x2 ∨ 0xFFFF < x3) := by
  simp only [fromlResponse, limbTooLarge, Bool.or_eq_true, decide_eq_true_eq, or_assoc]
  split
  next hbad => simp [hbad, eq_comm]
  next hok => simp [hok]

theorem frombResponse_eq_raised_iff (len : Nat) (d0 d1 d2 d3 d4 d5 d6 d7 : Byte) (c : Condition) :
    frombResponse len d0 d1 d2 d3 d4 d5 d6 d7 = .raised c ↔ c = .invalidLength ∧ len ≠ 8 := by
  unfold frombResponse Config.bufLen
  split
  next hbad => simp [hbad, eq_comm]
  next hok => simp [hok]

theorem cmpeqResponse_ne_raised (a b : Int64Value) (c : Condition) : cmpeqResponse a b ≠ .raised c := by
  unfold cmpeqResponse
  split <;> exact Response.noConfusion

theorem shlResponse_eq_raised_iff (a : Int64Value) (n : Int) (c : Condition) :
    shlResponse a n = .raised c ↔ c = .invalidAmount ∧ (n < 0 ∨ 64 < n) := by
  unfold shlResponse Config.maxShift
  split
  next hbad => simp [hbad, eq_comm]
  next hok => split <;> simp [hok]

theorem shrResponse_eq_raised_iff (a : Int64Value) (n : Int) (c : Condition) :
    shrResponse a n = .raised c ↔ c = .invalidAmount ∧ (n < 0 ∨ 64 < n) := by
  unfold shrResponse Config.maxShift
  split
  next hbad => simp [hbad, eq_comm]
  next hok => split <;> simp [hok]

/-! ### The requests that raise a condition -/

/-- When a request raises a condition, rule by rule (60_exceptions.md R171 to R174); `respond_eq_raised_iff` says
that the unit raises it exactly then. -/
def Raises (q : Request) : Condition → Prop
  | .invalidLength => q.op = 0x20#8 ∧ q.native ≠ 8
  | .invalidLimb => q.op = 0x10#8 ∧
      (0xFFFF < q.rawLimb 0 ∨ 0xFFFF < q.rawLimb 1 ∨ 0xFFFF < q.rawLimb 2 ∨ 0xFFFF < q.rawLimb 3)
  | .invalidAmount => (q.op = 0x42#8 ∨ q.op = 0x43#8) ∧ (q.amount < 0 ∨ 64 < q.amount)
  | .illegalOp => q.op ∉ definedOpcodes

/-- Only four of the defined opcodes have a condition (60_exceptions.md R171 to R173). -/
theorem not_raises_of_opcode {q : Request} (hdef : q.op ∈ definedOpcodes)
    (hop : q.op ∉ [0x10#8, 0x20#8, 0x42#8, 0x43#8]) (c : Condition) : ¬ Raises q c := by
  cases c with
  | invalidLength => exact fun ⟨h, _⟩ => hop (by simp [h])
  | invalidLimb => exact fun ⟨h, _⟩ => hop (by simp [h])
  | invalidAmount => exact fun ⟨h, _⟩ => hop (by simp [h])
  | illegalOp => exact fun h => h hdef

/-- A decoded request raises what its instruction raises: by an instruction with a condition, the check of its own
response; the others answer every operand with a value. -/
theorem responseTo_eq_raised_iff {q : Request} {i : Instr} (h : decode q = .ok i) (c : Condition) :
    responseTo i = .raised c ↔ Raises q c := by
  cases h using decode_ok_cases with
  | froml hop =>
    rw [responseTo, fromlResponse_eq_raised_iff]
    cases c <;> simp [Raises, hop, definedOpcodes]
  | fromb hop =>
    rw [responseTo, frombResponse_eq_raised_iff]
    cases c <;> simp [Raises, hop, definedOpcodes]
  | shl hop =>
    rw [responseTo, shlResponse_eq_raised_iff]
    cases c <;> simp [Raises, hop, definedOpcodes]
  | shr hop =>
    rw [responseTo, shrResponse_eq_raised_iff]
    cases c <;> simp [Raises, hop, definedOpcodes]
  | cmpeq hop =>
    have hnot := not_raises_of_opcode (by rw [hop]; decide) (by rw [hop]; decide) c
    exact iff_of_false (cmpeqResponse_ne_raised _ _ c) hnot
  | fromn hop | tol hop | tob hop | add hop | adds hop | muls hop | mul hop | rotl hop | rotr hop =>
    have hnot := not_raises_of_opcode (by rw [hop]; decide) (by rw [hop]; decide) c
    exact iff_of_false (fun h => nomatch h) hnot

/-- Every request raises a condition exactly when its rule says; a reserved opcode only `IllegalOp`. -/
theorem respond_eq_raised_iff (q : Request) (c : Condition) : respond q = .raised c ↔ Raises q c := by
  by_cases hdef : q.op ∈ definedOpcodes
  · obtain ⟨i, hi⟩ := decode_defined hdef
    rw [respond_of_decode hi, responseTo_eq_raised_iff hi]
  · have other {op : BitVec 8} (hop : op ∈ definedOpcodes) : q.op ≠ op := fun h => hdef (h ▸ hop)
    rw [respond_reserved hdef]
    cases c with
    | invalidLength => exact iff_of_false (fun h => nomatch h) (fun ⟨h, _⟩ => other (by decide) h)
    | invalidLimb => exact iff_of_false (fun h => nomatch h) (fun ⟨h, _⟩ => other (by decide) h)
    | invalidAmount =>
      exact iff_of_false (fun h => nomatch h) (fun ⟨h, _⟩ => h.elim (other (by decide)) (other (by decide)))
    | illegalOp => exact iff_of_true rfl hdef

/-- The two readings of an amount field put the same amounts outside `0 .. 64` (60_exceptions.md R173): a negative
one is `2^31` or more when read unsigned. -/
theorem amount_invalid_iff (x : BitVec 32) : x.toInt < 0 ∨ 64 < x.toInt ↔ 64 < x.toNat := by
  have := x.isLt
  rw [BitVec.toInt_eq_toNat_cond]
  split <;> omega

/-! ### The response word of a request -/

theorem respondWord_status (q : Request) : (respondWord q).extractLsb' 64 8 = (respond q).status :=
  (respond q).word_status

theorem respondWord_resultBits (q : Request) : (respondWord q).extractLsb' 0 64 = (respond q).resultBits :=
  (respond q).word_resultBits

theorem respondWord_status_eq_code_iff (q : Request) (c : Condition) :
    (respondWord q).extractLsb' 64 8 = c.code ↔ Raises q c := by
  rw [respondWord_status, Response.status_eq_code_iff, respond_eq_raised_iff]

/-- Settles O31: the status is the code of a condition exactly when its rule holds (`respond_eq_raised_iff`); what
else the word carries depends only on whether the response is a value or a condition. -/
theorem conditionsAreRaisedExactlyAsListed : Obligations.ConditionsAreRaisedExactlyAsListed := by
  intro q
  have hamount := respondWord_status_eq_code_iff q .invalidAmount
  refine ⟨respondWord_status_eq_code_iff q .invalidLength, respondWord_status_eq_code_iff q .invalidLimb, hamount,
    hamount.trans (and_congr_right fun _ => amount_invalid_iff _), respondWord_status_eq_code_iff q .illegalOp, ?_⟩
  rw [respondWord_status, respondWord_resultBits]
  cases respond q with
  | ok v => exact ⟨iff_of_true rfl ⟨v, rfl, rfl⟩, fun h => absurd rfl h, Nat.zero_le _⟩
  | raised c => exact ⟨iff_of_false c.code_ne_zero (fun ⟨_, h, _⟩ => nomatch h), fun _ => rfl, c.code_le⟩

end Sys2Proof.Machine
end

section
/-! PROOFS. The pseudo-operations of a host's command script (30_encoding.md R76). -/

namespace Sys2Proof.Machine

/-- Settles O49: each stands for a well-formed instruction, whose canonical word is answered as the instruction is
(`respond_encode`), and on these operands that is the constant. -/
theorem pseudoOperationsGiveTheConstants : Obligations.PseudoOperationsGiveTheConstants :=
  fun _ => ⟨rfl, respond_encode (i := .fromn 0) (by decide), rfl, respond_encode (i := .fromn 1) (by decide), rfl,
    respond_encode (i := .froml 0xFFFF 0xFFFF 0xFFFF 0xFFFF) (by decide)⟩

end Sys2Proof.Machine
end

section
/-! PROOFS. The decomposition of a native (40_construct_compare.md R105) and the instructions that use it. -/

namespace Sys2Proof

theorem limbsOfNative_limb2_toNat (n : Nat) : (limbsOfNative n).limb2.toNat = (n >>> 16) &&& 0xFFFF := by
  simp [limbsOfNative, and_0xFFFF]

theorem limbsOfNative_limb3_toNat (n : Nat) : (limbsOfNative n).limb3.toNat = n &&& 0xFFFF := by
  simp [limbsOfNative, and_0xFFFF]

/-- For every natural: the decomposition keeps the low 32 bits (log entry 18). -/
@[simp] theorem val_limbsOfNative (n : Nat) : (limbsOfNative n).val = n % 2 ^ 32 := by
  have h0 : (limbsOfNative n).limb0.toNat = 0 := rfl
  have h1 : (limbsOfNative n).limb1.toNat = 0 := rfl
  simp only [Int64Value.val, h0, h1, limbsOfNative_limb2_toNat, limbsOfNative_limb3_toNat, and_0xFFFF,
    Nat.shiftRight_eq_div_pow]
  omega

theorem val_limbsOfNative_of_lt {n : Nat} (h : n < 2 ^ 32) : (limbsOfNative n).val = n := by
  rw [val_limbsOfNative, Nat.mod_eq_of_lt h]

/-- The two low limbs of a word's native are the two halves of the `IMM` field (30_encoding.md R63). -/
theorem limbsOfNative_native (q : Request) :
    limbsOfNative q.native = ⟨0, 0, q.extractLsb' 144 16, q.extractLsb' 128 16⟩ := by
  apply Int64Value.ext_toNat
  · rfl
  · rfl
  · simp only [limbsOfNative_limb2_toNat, and_0xFFFF, Nat.shiftRight_eq_div_pow, Request.native, Request.imm,
      toNat_field]
    omega
  · simp only [limbsOfNative_limb3_toNat, and_0xFFFF, Request.native, Request.imm, toNat_field]
    omega

namespace Machine

/-! ### The adder and the multiplier by their values -/

theorem val_addValue (a b : Int64Value) : (addValue a b).val = (a.val + b.val) % 2 ^ 64 := by
  rw [addValue, Columns.value_val]
  congr 1
  simp only [addColumns, Int64Value.val]
  ring

theorem val_addsValue {n : Nat} (h : n < 2 ^ 32) (a : Int64Value) :
    (addsValue a n).val = (a.val + n) % 2 ^ 64 := by
  rw [addsValue, val_addValue, val_limbsOfNative_of_lt h]

theorem val_mulsValue (a : Int64Value) (n : Nat) : (mulsValue a n).val = a.val * n % 2 ^ 64 := by
  rw [mulsValue, Columns.value_val]
  congr 1
  simp only [mulsColumns, Int64Value.val]
  ring

theorem addsValue_zero {n : Nat} (h : n < 2 ^ 32) : addsValue .zero n = limbsOfNative n := by
  apply Int64Value.eq_of_val_eq
  have hzero : Int64Value.zero.val = 0 := rfl
  rw [val_addsValue h, hzero, val_limbsOfNative_of_lt h]
  omega

theorem mulsValue_one {n : Nat} (h : n < 2 ^ 32) : mulsValue .one n = limbsOfNative n := by
  apply Int64Value.eq_of_val_eq
  have hone : Int64Value.one.val = 1 := rfl
  rw [val_mulsValue, hone, val_limbsOfNative_of_lt h]
  omega

/-! ### `FROMN`, `ADDS` and `MULS` on a native -/

theorem exec_fromn (n : Nat) (s : State) : exec (.fromn n) s = .next (s.drive (.ok (limbsOfNative n))) :=
  exec_eq_drive (.fromn n) s

theorem exec_adds (a : Int64Value) (n : Nat) (s : State) :
    exec (.adds a n) s = .next (s.drive (.ok (addsValue a n))) :=
  exec_eq_drive (.adds a n) s

theorem exec_muls (a : Int64Value) (n : Nat) (s : State) :
    exec (.muls a n) s = .next (s.drive (.ok (mulsValue a n))) :=
  exec_eq_drive (.muls a n) s

/-- `ADDS` is `ADD` on the native's limbs (42_arithmetic.md R132). -/
theorem exec_adds_eq_exec_add (a : Int64Value) (n : Nat) (s : State) :
    exec (.adds a n) s = exec (.add a (limbsOfNative n)) s :=
  (exec_adds a n s).trans (exec_eq_drive (.add a (limbsOfNative n)) s).symm

/-- Settles O3: the limbs are a shift and a mask, and below `2^32` the two low limbs hold all of the native
(`val_limbsOfNative_of_lt`). -/
theorem limbsOfNativeKeepTheNative : Obligations.LimbsOfNativeKeepTheNative := fun n hn =>
  ⟨rfl, rfl, limbsOfNative_limb2_toNat n, limbsOfNative_limb3_toNat n, val_limbsOfNative_of_lt hn,
    fun s => ⟨exec_fromn n s, fun a => exec_adds_eq_exec_add a n s⟩⟩

/-- Settles O10: the native's limbs are the halves of `IMM`; adding the native to `zero` and multiplying `one` by it
give a value with the same `val`, which is the same value. -/
theorem fromnDecomposesTheNative : Obligations.FromnDecomposesTheNative := by
  refine ⟨fun q hop => ?_, fun n s hn => ?_⟩
  · have hdecode := decode_fromn hop
    have hrespond : respond q = .ok (limbsOfNative q.native) := respond_of_decode hdecode
    exact ⟨hdecode, by rw [hrespond, limbsOfNative_native]⟩
  · refine ⟨limbsOfNative n, exec_fromn n s, val_limbsOfNative_of_lt hn, ?_, ?_⟩
    · rw [exec_fromn, exec_adds, addsValue_zero hn]
    · rw [exec_fromn, exec_muls, mulsValue_one hn]

end Machine

end Sys2Proof
end

section
/-! PROOFS. `CMPEQ` (40_construct_compare.md R104). -/

namespace Sys2Proof

/-- A value is its four limbs (10_state.md R33). -/
theorem Int64Value.eq_iff_limbs (a b : Int64Value) :
    a = b ↔ a.limb0 = b.limb0 ∧ a.limb1 = b.limb1 ∧ a.limb2 = b.limb2 ∧ a.limb3 = b.limb3 := by
  cases a; cases b
  rw [Int64Value.mk.injEq]

theorem Int64Value.val_inj {a b : Int64Value} : a.val = b.val ↔ a = b :=
  ⟨eq_of_val_eq, congrArg val⟩

namespace Machine

theorem cmpeqResponse_self (a : Int64Value) : cmpeqResponse a a = .ok .one :=
  if_pos ⟨rfl, rfl, rfl, rfl⟩

theorem cmpeqResponse_of_ne {a b : Int64Value} (h : a ≠ b) : cmpeqResponse a b = .ok .zero :=
  if_neg (mt (Int64Value.eq_iff_limbs a b).mpr h)

theorem cmpeqResponse_eq_one_iff (a b : Int64Value) : cmpeqResponse a b = .ok .one ↔ a = b := by
  by_cases h : a = b
  · exact iff_of_true (h ▸ cmpeqResponse_self a) h
  · refine iff_of_false ?_ h
    rw [cmpeqResponse_of_ne h]
    decide

theorem cmpeqResponse_comm (a b : Int64Value) : cmpeqResponse a b = cmpeqResponse b a := by
  by_cases h : a = b
  · rw [h]
  · rw [cmpeqResponse_of_ne h, cmpeqResponse_of_ne (Ne.symm h)]

theorem exec_cmpeq (a b : Int64Value) (s : State) :
    exec (.cmpeq a b) s = .next (s.drive (cmpeqResponse a b)) :=
  exec_eq_drive (.cmpeq a b) s

/-- The next state tells which response was driven: it is on the port. -/
theorem next_drive_inj {s : State} {r r' : Response} :
    (.next (s.drive r) : Host.Outcome State Fault Refusal) = .next (s.drive r') ↔ r = r' := by
  refine ⟨fun h => ?_, fun h => h ▸ rfl⟩
  injection h with hstate
  exact Option.some.inj (congrArg State.out hstate)

/-- Settles O12: agreement of the limbs is equality of the values, which is equality of their `val`s; the response is
`one` for equal values and `zero` for others. -/
theorem cmpeqComparesLimbsPairwise : Obligations.CmpeqComparesLimbsPairwise := by
  refine ⟨fun q hop => ?_, fun a b s hlimbs => ?_, fun a b s hlimbs => ?_, fun a b s => ?_, fun a b s => ?_⟩
  · exact ⟨q.valueA, q.valueB, decode_cmpeq hop, q.toBits_valueA, q.toBits_valueB⟩
  · rw [exec_cmpeq, (Int64Value.eq_iff_limbs a b).mpr hlimbs, cmpeqResponse_self]
    rfl
  · rw [exec_cmpeq, cmpeqResponse_of_ne (mt (Int64Value.eq_iff_limbs a b).mp hlimbs)]
    rfl
  · rw [exec_cmpeq, next_drive_inj, cmpeqResponse_eq_one_iff, Int64Value.val_inj]
  · rw [exec_cmpeq, exec_cmpeq, cmpeqResponse_comm]

end Machine

end Sys2Proof
end

section
/-! PROOFS. `TOL` (40_construct_compare.md R103). -/

namespace Sys2Proof.Machine

/-- `ST` is `0x00` in a result's word, so the word is the value's 64 bits alone (30_encoding.md R70, R71). -/
theorem Response.word_ok (v : Int64Value) : (Response.ok v).word = BitVec.zeroExtend 72 v.toBits := by
  have hstatus : (Response.ok v).status.toNat = 0 := rfl
  have := v.toBits.isLt
  apply BitVec.eq_of_toNat_eq
  simp only [word, resultBits, BitVec.toNat_cast, toNat_append_add, BitVec.toNat_setWidth, hstatus]
  omega

theorem exec_tol (a : Int64Value) (s : State) : exec (.tol a) s = .next (s.drive (.ok a)) :=
  exec_eq_drive (.tol a) s

theorem exec_tob (a : Int64Value) (s : State) : exec (.tob a) s = .next (s.drive (.ok a)) :=
  exec_eq_drive (.tob a) s

/-- Settles O11: the operand is field `A` read as a value, and an OK word carries that value's bits back. -/
theorem tolReturnsItsOperand : Obligations.TolReturnsItsOperand := by
  refine ⟨fun q hop => ?_, fun a s => ⟨exec_tol a s, (exec_tol a s).trans (exec_tob a s).symm⟩⟩
  have hdecode := decode_tol hop
  have hrespond : respond q = .ok q.valueA := respond_of_decode hdecode
  have hword : (respond q).word = BitVec.zeroExtend 72 q.fieldA := by
    rw [hrespond, Response.word_ok, q.toBits_valueA]
  exact ⟨q.valueA, hdecode, q.toBits_valueA, hword⟩

end Sys2Proof.Machine
end

section
/-! PROOFS. `TOB` (41_serialization.md R121). -/

namespace Sys2Proof

/-- A number laid out as two bytes: the shift reads the high one, the mask the low one. -/
theorem toNat_bytes_eq_shift_mask {x : Nat} {hi lo : Byte} (h : x = hi.toNat * 256 + lo.toNat) :
    hi.toNat = x >>> 8 ∧ lo.toNat = x &&& 0xFF := by
  have hlo := lo.isLt
  have hmask : x &&& 0xFF = x % 256 := Nat.and_two_pow_sub_one_eq_mod x 8
  rw [Nat.shiftRight_eq_div_pow, hmask]
  omega

namespace Machine

/-- Settles O14: the operand is field `A` read as a value, and each limb is its two bytes (`limbs_toNat_eq_bytes`),
which the shift and the mask take apart. -/
theorem tobReturnsEightBigEndianBytes : Obligations.TobReturnsEightBigEndianBytes := by
  refine ⟨fun q hop => ⟨q.valueA, decode_tob hop, q.toBits_valueA⟩, fun a s => ⟨exec_tob a s, ?_⟩⟩
  obtain ⟨h0, h1, h2, h3⟩ := a.limbs_toNat_eq_bytes
  obtain ⟨hb0, hb1⟩ := toNat_bytes_eq_shift_mask h0
  obtain ⟨hb2, hb3⟩ := toNat_bytes_eq_shift_mask h1
  obtain ⟨hb4, hb5⟩ := toNat_bytes_eq_shift_mask h2
  obtain ⟨hb6, hb7⟩ := toNat_bytes_eq_shift_mask h3
  exact ⟨hb0, hb1, hb2, hb3, hb4, hb5, hb6, hb7⟩

end Machine

end Sys2Proof
end

section
/-! PROOFS. The carry recurrence that the three datapaths share (42_arithmetic.md R131, R133, R134): its result limbs
and a bound on its accumulators, and the datapaths by their values. -/

namespace Sys2Proof.Machine

/-! ### Result limbs and accumulators -/

theorem Columns.value_limb3_toNat (c : Columns) : c.value.limb3.toNat = c.accumulate.c0 % 0x10000 := by
  simp [Columns.value]

theorem Columns.value_limb2_toNat (c : Columns) : c.value.limb2.toNat = c.accumulate.c1 % 0x10000 := by
  simp [Columns.value]

theorem Columns.value_limb1_toNat (c : Columns) : c.value.limb1.toNat = c.accumulate.c2 % 0x10000 := by
  simp [Columns.value]

theorem Columns.value_limb0_toNat (c : Columns) : c.value.limb0.toNat = c.accumulate.c3 % 0x10000 := by
  simp [Columns.value]

/-- Each bound makes room for its own column and for the carry that the bound below it allows. -/
theorem Columns.accumulate_le {c bound : Columns} (h0 : c.c0 ≤ bound.c0)
    (h1 : c.c1 + bound.c0 / 0x10000 ≤ bound.c1) (h2 : c.c2 + bound.c1 / 0x10000 ≤ bound.c2)
    (h3 : c.c3 + bound.c2 / 0x10000 ≤ bound.c3) :
    c.accumulate.c0 ≤ bound.c0 ∧ c.accumulate.c1 ≤ bound.c1 ∧ c.accumulate.c2 ≤ bound.c2 ∧
    c.accumulate.c3 ≤ bound.c3 := by
  have carry {acc b : Nat} (h : acc ≤ b) : acc / 0x10000 ≤ b / 0x10000 := Nat.div_le_div_right h
  have hacc1 : c.accumulate.c1 ≤ bound.c1 := (Nat.add_le_add_left (carry h0) c.c1).trans h1
  have hacc2 : c.accumulate.c2 ≤ bound.c2 := (Nat.add_le_add_left (carry hacc1) c.c2).trans h2
  have hacc3 : c.accumulate.c3 ≤ bound.c3 := (Nat.add_le_add_left (carry hacc2) c.c3).trans h3
  exact ⟨h0, hacc1, hacc2, hacc3⟩

/-! ### `ADD`, `MUL` and `SHL` by their values -/

theorem exec_add (a b : Int64Value) (s : State) : exec (.add a b) s = .next (s.drive (.ok (addValue a b))) :=
  exec_eq_drive (.add a b) s

theorem exec_mul (a b : Int64Value) (s : State) : exec (.mul a b) s = .next (s.drive (.ok (mulValue a b))) :=
  exec_eq_drive (.mul a b) s

theorem exec_shl (a : Int64Value) (n : Int) (s : State) : exec (.shl a n) s = .next (s.drive (shlResponse a n)) :=
  exec_eq_drive (.shl a n) s

theorem addValue_comm (a b : Int64Value) : addValue a b = addValue b a := by
  apply Int64Value.eq_of_val_eq
  rw [val_addValue, val_addValue, Nat.add_comm]

/-- The six partial products that `MUL` leaves out (42_arithmetic.md R134), by their weights over `2^64`. -/
def omittedProducts (a b : Int64Value) : Nat :=
  (a.limb0.toNat * b.limb2.toNat + a.limb1.toNat * b.limb1.toNat + a.limb2.toNat * b.limb0.toNat)
    + (a.limb0.toNat * b.limb1.toNat + a.limb1.toNat * b.limb0.toNat) * 2 ^ 16
    + a.limb0.toNat * b.limb0.toNat * 2 ^ 32

/-- The sixteen partial products: ten in the columns, six of weight `2^64` or more. -/
theorem val_mul_val (a b : Int64Value) :
    a.val * b.val = (mulColumns a b).c0 + (mulColumns a b).c1 * 2 ^ 16 + (mulColumns a b).c2 * 2 ^ 32
      + (mulColumns a b).c3 * 2 ^ 48 + 2 ^ 64 * omittedProducts a b := by
  simp only [omittedProducts, mulColumns, Int64Value.val]
  ring

theorem val_mulValue (a b : Int64Value) : (mulValue a b).val = a.val * b.val % 2 ^ 64 := by
  rw [mulValue, Columns.value_val, val_mul_val, Nat.add_mul_mod_self_left]

theorem mulValue_comm (a b : Int64Value) : mulValue a b = mulValue b a := by
  apply Int64Value.eq_of_val_eq
  rw [val_mulValue, val_mulValue, Nat.mul_comm]

theorem mulsValue_two (a : Int64Value) : mulsValue a 2 = addValue a a := by
  apply Int64Value.eq_of_val_eq
  rw [val_mulsValue, val_addValue, Nat.mul_two]

theorem shlResponse_natCast {k : Nat} (hk : k < 64) (a : Int64Value) :
    shlResponse a k = .ok (.limbs (a.val * 2 ^ k % 2 ^ 64)) := by
  have hrange : ¬((k : Int) < 0 ∨ Config.maxShift < k) := by unfold Config.maxShift; omega
  have hlast : ¬(k : Int) = Config.maxShift := by unfold Config.maxShift; omega
  rw [shlResponse, if_neg hrange, if_neg hlast, Int.toNat_natCast, Nat.shiftLeft_eq]

/-- Multiplying by a power of two is shifting left. -/
theorem exec_muls_two_pow {k : Nat} (hk : k < 64) (a : Int64Value) (s : State) :
    exec (.muls a (2 ^ k)) s = exec (.shl a k) s := by
  rw [exec_muls, exec_shl, shlResponse_natCast hk, ← val_mulsValue, Int64Value.limbs_val]

end Sys2Proof.Machine
end

section
/-! PROOFS. `ADD` and `ADDS` (42_arithmetic.md R131, R132). -/

namespace Sys2Proof.Machine

/-- A limb sum with its carry, `0xFFFF + 0xFFFF + 1` at most. -/
theorem addColumns_accumulate_le (a b : Int64Value) :
    (addColumns a b).accumulate.c0 ≤ 0x1FFFF ∧ (addColumns a b).accumulate.c1 ≤ 0x1FFFF ∧
    (addColumns a b).accumulate.c2 ≤ 0x1FFFF ∧ (addColumns a b).accumulate.c3 ≤ 0x1FFFF := by
  have hsum (x y : Limb) : x.toNat + y.toNat + 0x1FFFF / 0x10000 ≤ 0x1FFFF := by
    have := x.isLt; have := y.isLt
    omega
  exact Columns.accumulate_le (bound := ⟨0x1FFFF, 0x1FFFF, 0x1FFFF, 0x1FFFF⟩)
    (Nat.le_of_add_right_le (hsum a.limb3 b.limb3)) (hsum a.limb2 b.limb2) (hsum a.limb1 b.limb1)
    (hsum a.limb0 b.limb0)

/-- Settles O17: the sums are the accumulators of the shared recurrence on the limb sums; commutativity and the
agreement with `SHL` and `MULS` are equalities of `val`. -/
theorem addPropagatesTheLimbCarry : Obligations.AddPropagatesTheLimbCarry := by
  refine ⟨fun q hop => ?_, fun a b s => ?_, fun a b s => ?_, fun a s => ?_⟩
  · exact ⟨q.valueA, q.valueB, decode_add hop, q.toBits_valueA, q.toBits_valueB⟩
  · let c := addColumns a b
    exact ⟨c.value, c.accumulate.c0, c.accumulate.c1, c.accumulate.c2, c.accumulate.c3, exec_add a b s,
      rfl, c.value_limb3_toNat, rfl, c.value_limb2_toNat, rfl, c.value_limb1_toNat, rfl, c.value_limb0_toNat,
      addColumns_accumulate_le a b⟩
  · rw [exec_add, exec_add, addValue_comm]
  · have hmuls : exec (.add a a) s = exec (.muls a 2) s := by rw [exec_add, exec_muls, mulsValue_two]
    have hshl : exec (.muls a 2) s = exec (.shl a 1) s := exec_muls_two_pow (k := 1) (by decide) a s
    exact ⟨hmuls.trans hshl, hmuls⟩

/-- Settles O18: below `2^32` the mask of the native's upper half keeps all of it, and `ADDS` is `ADD` on those limbs by
definition. -/
theorem addsAddsTheNativesLimbs : Obligations.AddsAddsTheNativesLimbs := by
  refine ⟨fun q hop => ⟨q.valueA, decode_adds hop, q.toBits_valueA⟩, fun a n s hn => ?_⟩
  have hlimb2 : (limbsOfNative n).limb2.toNat = n / 0x10000 := by
    rw [limbsOfNative_limb2_toNat, and_0xFFFF, Nat.shiftRight_eq_div_pow]
    omega
  have hlimb3 : (limbsOfNative n).limb3.toNat = n % 0x10000 := by
    rw [limbsOfNative_limb3_toNat, and_0xFFFF]
  exact ⟨limbsOfNative n, addsValue a n, rfl, rfl, hlimb2, hlimb3, exec_fromn n s, exec_adds a n s,
    exec_add a (limbsOfNative n) s⟩

end Sys2Proof.Machine
end

section
/-! PROOFS. `MULS` (42_arithmetic.md R133). -/

namespace Sys2Proof.Machine

/-- A limb product with its carry, `(2^16 - 1) * (2^32 - 1) + (2^32 - 1)` at most. -/
theorem mulsColumns_accumulate_le {n : Nat} (hn : n < 2 ^ 32) (a : Int64Value) :
    (mulsColumns a n).accumulate.c0 ≤ 2 ^ 48 - 2 ^ 16 ∧ (mulsColumns a n).accumulate.c1 ≤ 2 ^ 48 - 2 ^ 16 ∧
    (mulsColumns a n).accumulate.c2 ≤ 2 ^ 48 - 2 ^ 16 ∧ (mulsColumns a n).accumulate.c3 ≤ 2 ^ 48 - 2 ^ 16 := by
  have hproduct (x : Limb) : x.toNat * n + (2 ^ 48 - 2 ^ 16) / 0x10000 ≤ 2 ^ 48 - 2 ^ 16 := by
    have : x.toNat * n ≤ (2 ^ 16 - 1) * (2 ^ 32 - 1) :=
      Nat.mul_le_mul (Nat.le_sub_one_of_lt x.isLt) (Nat.le_sub_one_of_lt hn)
    omega
  exact Columns.accumulate_le
    (bound := ⟨2 ^ 48 - 2 ^ 16, 2 ^ 48 - 2 ^ 16, 2 ^ 48 - 2 ^ 16, 2 ^ 48 - 2 ^ 16⟩)
    (Nat.le_of_add_right_le (hproduct a.limb3)) (hproduct a.limb2) (hproduct a.limb1) (hproduct a.limb0)

theorem carry_le_of_le_48bit {acc : Nat} (h : acc ≤ 2 ^ 48 - 2 ^ 16) : acc / 0x10000 ≤ 2 ^ 32 - 1 :=
  Nat.div_le_div_right h

/-- Settles O19: the accumulators are those of the shared recurrence on the limb products; the agreement with `FROMN`,
`ADD` and `SHL` is equality of `val`. -/
theorem mulsAccumulatesIn48Bits : Obligations.MulsAccumulatesIn48Bits := by
  refine ⟨fun q hop => ?_, fun a n s hn => ?_, fun n s hn => ?_, fun a s => ⟨?_, ?_⟩⟩
  · exact ⟨q.valueA, decode_muls hop, q.toBits_valueA⟩
  · let c := mulsColumns a n
    obtain ⟨h3, h2, h1, h0⟩ := mulsColumns_accumulate_le hn a
    exact ⟨c.value, c.accumulate.c0, c.accumulate.c1, c.accumulate.c2, c.accumulate.c3, exec_muls a n s,
      rfl, c.value_limb3_toNat, rfl, c.value_limb2_toNat, rfl, c.value_limb1_toNat, rfl, c.value_limb0_toNat,
      h3, h2, h1, h0, carry_le_of_le_48bit h3, carry_le_of_le_48bit h2, carry_le_of_le_48bit h1,
      carry_le_of_le_48bit h0⟩
  · rw [exec_muls, exec_fromn, mulsValue_one hn]
  · rw [exec_muls, exec_add, mulsValue_two]
  · exact exec_muls_two_pow (k := 16) (by decide) a s

end Sys2Proof.Machine
end

section
/-! PROOFS. `MUL` (42_arithmetic.md R134). -/

namespace Sys2Proof.Machine

theorem limb_mul_le (x y : Limb) : x.toNat * y.toNat ≤ 0xFFFE0001 :=
  Nat.mul_le_mul (Nat.le_sub_one_of_lt x.isLt) (Nat.le_sub_one_of_lt y.isLt)

/-- Columns 0 to 2 hold at most three products, so the carry into column 3 is at most `0x2FFFC`, and four products
with that carry are exactly `0x3FFFB0000` at most. -/
theorem mulColumns_accumulate_le (a b : Int64Value) :
    (mulColumns a b).accumulate.c0 ≤ 0x3FFFB0000 ∧ (mulColumns a b).accumulate.c1 ≤ 0x3FFFB0000 ∧
    (mulColumns a b).accumulate.c2 ≤ 0x3FFFB0000 ∧ (mulColumns a b).accumulate.c3 ≤ 0x3FFFB0000 := by
  have p33 := limb_mul_le a.limb3 b.limb3
  have p23 := limb_mul_le a.limb2 b.limb3; have p32 := limb_mul_le a.limb3 b.limb2
  have p13 := limb_mul_le a.limb1 b.limb3; have p22 := limb_mul_le a.limb2 b.limb2
  have p31 := limb_mul_le a.limb3 b.limb1
  have p03 := limb_mul_le a.limb0 b.limb3; have p12 := limb_mul_le a.limb1 b.limb2
  have p21 := limb_mul_le a.limb2 b.limb1; have p30 := limb_mul_le a.limb3 b.limb0
  obtain ⟨h0, h1, h2, h3⟩ := Columns.accumulate_le (c := mulColumns a b)
    (bound := ⟨0x2FFFCFFFF, 0x2FFFCFFFF, 0x2FFFCFFFF, 0x3FFFB0000⟩)
    (by simp only [mulColumns]; omega) (by simp only [mulColumns]; omega)
    (by simp only [mulColumns]; omega) (by simp only [mulColumns]; omega)
  exact ⟨h0.trans (by decide), h1.trans (by decide), h2.trans (by decide), h3⟩

theorem carry_le_of_le_34bit {acc : Nat} (h : acc ≤ 0x3FFFB0000) : acc / 0x10000 ≤ 0x3FFFB :=
  Nat.div_le_div_right h

theorem mulValue_limbsOfNative {n : Nat} (hn : n < 2 ^ 32) (a : Int64Value) :
    mulValue a (limbsOfNative n) = mulsValue a n := by
  apply Int64Value.eq_of_val_eq
  rw [val_mulValue, val_mulsValue, val_limbsOfNative_of_lt hn]

/-- Settles O20: the accumulators are those of the shared recurrence on the four columns; commutativity and the
agreement with `MULS` follow from the product modulo `2^64` (`val_mulValue`). -/
theorem mulAccumulatesTenPartialProducts : Obligations.MulAccumulatesTenPartialProducts := by
  refine ⟨fun q hop => ?_, fun a b s => ?_, fun a b s => ?_, fun a n s hn => ?_⟩
  · exact ⟨q.valueA, q.valueB, decode_mul hop, q.toBits_valueA, q.toBits_valueB⟩
  · let c := mulColumns a b
    obtain ⟨h0, h1, h2, h3⟩ := mulColumns_accumulate_le a b
    exact ⟨c.value, c.accumulate.c0, c.accumulate.c1, c.accumulate.c2, c.accumulate.c3, exec_mul a b s,
      rfl, c.value_limb3_toNat, rfl, c.value_limb2_toNat, rfl, c.value_limb1_toNat, rfl, c.value_limb0_toNat,
      h0, h1, h2, h3, carry_le_of_le_34bit h0, carry_le_of_le_34bit h1, carry_le_of_le_34bit h2,
      carry_le_of_le_34bit h3⟩
  · rw [exec_mul, exec_mul, mulValue_comm]
  · rw [exec_mul, exec_muls, mulValue_limbsOfNative hn]

end Sys2Proof.Machine
end

section
/-! PROOFS. One clock edge, one equation per case of `step_cases`: what the pins and the slot call for is what the
edge does (20_memory.md R42, R43; 70_reset_and_hazards.md R200). -/

namespace Sys2Proof.Machine

variable {s : State} {q : Request}

theorem State.sampled_of_inputs {p : PortInputs} {ps : List PortInputs} (h : s.inputs = p :: ps) : s.sampled = p := by
  rw [State.sampled, h, List.headD_cons]

theorem step_of_reset (hrst : s.sampled.rst = true) : step s = .next s.afterSample.resetUnit := by
  simp [step, edge, hrst]

theorem step_of_request (hrst : s.sampled.rst = false) (hs : s.slot = .empty) (hv : s.sampled.reqValid = true) :
    step s = .next (s.afterSample.accept s.sampled.req) := by
  simp [step, edge, edgeEmpty, hrst, hs, hv]

theorem step_of_noRequest (hrst : s.sampled.rst = false) (hs : s.slot = .empty) (hv : s.sampled.reqValid = false) :
    step s = .next s.afterSample := by
  simp [step, edge, edgeEmpty, hrst, hs, hv]

theorem step_of_taken {r : Response} (hrst : s.sampled.rst = false) (hs : s.slot = .busy q) (ho : s.out = some r)
    (hy : s.sampled.rspReady = true) : step s = .next (s.afterSample.release q r) := by
  simp [step, edge, edgeBusy, hrst, hs, ho, hy]

theorem step_of_held {r : Response} (hrst : s.sampled.rst = false) (hs : s.slot = .busy q) (ho : s.out = some r)
    (hy : s.sampled.rspReady = false) : step s = .next s.afterSample := by
  simp [step, edge, edgeBusy, hrst, hs, ho, hy]

theorem step_of_due (hrst : s.sampled.rst = false) (hs : s.slot = .busy q) (ho : s.out = none) (hw : s.wait ≤ 1) :
    step s = .next (s.afterSample.drive (respond q)) := by
  simp [step, edge, edgeBusy, hrst, hs, ho, hw]

theorem step_of_waiting (hrst : s.sampled.rst = false) (hs : s.slot = .busy q) (ho : s.out = none) (hw : 1 < s.wait) :
    step s = .next s.afterSample.countDown := by
  simp [step, edge, edgeBusy, hrst, hs, ho, Nat.not_le.mpr hw]

/-- Settles O40: the reset edge is `resetUnit`, from every state. -/
theorem resetEdgeDropsTheRequest : Obligations.ResetEdgeDropsTheRequest := fun _ hrst =>
  ⟨_, step_of_reset hrst, rfl, rfl, rfl, rfl, rfl, rfl, rfl⟩

end Sys2Proof.Machine
end

section
/-! PROOFS. Timing depends on the opcode alone (70_reset_and_hazards.md R209): `SameTiming` is kept by every move of
the unit, hence by every edge, hence by every run. -/

namespace Sys2Proof.Machine

/-! ### What an observer of the timing sees of the slot and of the response -/

/-- `req_ready` shows no more of the slot than the opcode in flight. -/
theorem State.reqReady_eq_isNone_opInFlight (s : State) : s.reqReady = s.opInFlight.isNone := by
  unfold reqReady opInFlight
  cases s.slot <;> rfl

theorem State.opInFlight_eq_none_iff (s : State) : s.opInFlight = none ↔ s.slot = .empty := by
  unfold opInFlight
  cases s.slot <;> simp

theorem State.opInFlight_eq_some_iff (s : State) (op : BitVec 8) :
    s.opInFlight = some op ↔ ∃ q, s.slot = .busy q ∧ q.op = op := by
  unfold opInFlight
  cases s.slot <;> simp

theorem State.rspValid_eq_true_iff (s : State) : s.rspValid = true ↔ ∃ r, s.out = some r := Option.isSome_iff_exists

theorem State.rspValid_eq_false_iff (s : State) : s.rspValid = false ↔ s.out = none := by
  rw [rspValid, Option.isSome_eq_false_iff, Option.isNone_iff_eq_none]

theorem State.timing_sampled (s : State) :
    s.sampled.timing = (s.inputs.map PortInputs.timing).headD PortInputs.idle.timing := by
  unfold sampled
  cases s.inputs <;> rfl

namespace State.SameTiming

variable {s t : State}

theorem slot_empty (h : s.SameTiming t) (hs : s.slot = .empty) : t.slot = .empty := by
  rwa [← opInFlight_eq_none_iff, ← h.op, opInFlight_eq_none_iff]

theorem slot_busy {q : Request} (h : s.SameTiming t) (hs : s.slot = .busy q) :
    ∃ q', t.slot = .busy q' ∧ q'.op = q.op := by
  rw [← opInFlight_eq_some_iff, ← h.op, opInFlight_eq_some_iff]
  exact ⟨q, hs, rfl⟩

theorem out_none (h : s.SameTiming t) (ho : s.out = none) : t.out = none := by
  rwa [← rspValid_eq_false_iff, ← h.valid, rspValid_eq_false_iff]

theorem out_some {r : Response} (h : s.SameTiming t) (ho : s.out = some r) : ∃ r', t.out = some r' := by
  rw [← rspValid_eq_true_iff, ← h.valid, rspValid_eq_true_iff]
  exact ⟨r, ho⟩

theorem reqReady (h : s.SameTiming t) : s.reqReady = t.reqReady := by
  rw [reqReady_eq_isNone_opInFlight, reqReady_eq_isNone_opInFlight, h.op]

/-- The hosts drive the same levels at the next edge but for the operand fields of `req`. -/
theorem sampled (h : s.SameTiming t) : s.sampled.rst = t.sampled.rst ∧ s.sampled.reqValid = t.sampled.reqValid ∧
    s.sampled.req.op = t.sampled.req.op ∧ s.sampled.rspReady = t.sampled.rspReady := by
  have heq : s.sampled.timing = t.sampled.timing := by rw [timing_sampled, timing_sampled, h.inputs]
  simpa [PortInputs.timing] using heq

/-! ### Each move of the unit keeps the relation -/

theorem afterSample (h : s.SameTiming t) : s.afterSample.SameTiming t.afterSample :=
  ⟨h.op, h.wait, h.valid, h.latency, by simp [h.inputs]⟩

theorem resetUnit (h : s.SameTiming t) : s.resetUnit.SameTiming t.resetUnit :=
  ⟨rfl, rfl, rfl, h.latency, h.inputs⟩

theorem accept {q q' : Request} (h : s.SameTiming t) (hop : q.op = q'.op) : (s.accept q).SameTiming (t.accept q') :=
  ⟨congrArg some hop, by simp [h.latency, hop], rfl, h.latency, h.inputs⟩

theorem release (h : s.SameTiming t) (q q' : Request) (r r' : Response) :
    (s.release q r).SameTiming (t.release q' r') :=
  ⟨rfl, rfl, rfl, h.latency, h.inputs⟩

theorem drive (h : s.SameTiming t) (r r' : Response) : (s.drive r).SameTiming (t.drive r') :=
  ⟨h.op, rfl, rfl, h.latency, h.inputs⟩

theorem countDown (h : s.SameTiming t) : s.countDown.SameTiming t.countDown :=
  ⟨h.op, by simp [h.wait], h.valid, h.latency, h.inputs⟩

end State.SameTiming

/-! ### Edges and runs -/

/-- The pins, the slot, the response and the counter decide which move an edge makes, and the two states agree on what
decides: they make the same move. -/
theorem step_sameTiming {s t s' : State} (hsame : s.SameTiming t) (hstep : step s = .next s') :
    ∃ t', step t = .next t' ∧ s'.SameTiming t' := by
  obtain ⟨hrst', hv', hop, hy'⟩ := hsame.sampled
  obtain ⟨hrst, rfl⟩ | ⟨hrst, hs, hv, rfl⟩ | ⟨hrst, hs, hv, rfl⟩ | ⟨q, r, hrst, hs, ho, hy, rfl⟩ |
    ⟨q, r, hrst, hs, ho, hy, rfl⟩ | ⟨q, hrst, hs, ho, hw, rfl⟩ | ⟨q, hrst, hs, ho, hw, rfl⟩ := step_cases hstep
  all_goals rw [hrst'] at hrst
  case inl => exact ⟨_, step_of_reset hrst, hsame.afterSample.resetUnit⟩
  case inr.inl => exact ⟨_, step_of_request hrst (hsame.slot_empty hs) (hv' ▸ hv), hsame.afterSample.accept hop⟩
  case inr.inr.inl => exact ⟨_, step_of_noRequest hrst (hsame.slot_empty hs) (hv' ▸ hv), hsame.afterSample⟩
  case inr.inr.inr.inl =>
    obtain ⟨q', hs', -⟩ := hsame.slot_busy hs
    obtain ⟨r', ho'⟩ := hsame.out_some ho
    exact ⟨_, step_of_taken hrst hs' ho' (hy' ▸ hy), hsame.afterSample.release q q' r r'⟩
  case inr.inr.inr.inr.inl =>
    obtain ⟨q', hs', -⟩ := hsame.slot_busy hs
    obtain ⟨r', ho'⟩ := hsame.out_some ho
    exact ⟨_, step_of_held hrst hs' ho' (hy' ▸ hy), hsame.afterSample⟩
  case inr.inr.inr.inr.inr.inl =>
    obtain ⟨q', hs', -⟩ := hsame.slot_busy hs
    exact ⟨_, step_of_due hrst hs' (hsame.out_none ho) (hsame.wait ▸ hw), hsame.afterSample.drive _ _⟩
  case inr.inr.inr.inr.inr.inr =>
    obtain ⟨q', hs', -⟩ := hsame.slot_busy hs
    exact ⟨_, step_of_waiting hrst hs' (hsame.out_none ho) (hsame.wait ▸ hw), hsame.afterSample.countDown⟩

theorem run_sameTiming (k : Nat) {s t : State} (hsame : s.SameTiming t) :
    ∃ s' t', Host.Core.run core k s = .next s' ∧ Host.Core.run core k t = .next t' ∧ s'.SameTiming t' := by
  induction k generalizing s t with
  | zero => exact ⟨s, t, rfl, rfl, hsame⟩
  | succ k ih =>
    obtain ⟨u, hu⟩ := step_total s
    obtain ⟨v, hv, huv⟩ := step_sameTiming hsame hu
    rw [run_succ_of_step k hu, run_succ_of_step k hv]
    exact ih huv

/-- Settles O45: `run_sameTiming`, and what the relation says of the two pins. -/
theorem timingDependsOnlyOnTheOpcode : Obligations.TimingDependsOnlyOnTheOpcode := by
  intro k s t hsame
  obtain ⟨s', t', hs, ht, hsame'⟩ := run_sameTiming k hsame
  exact ⟨s', t', hs, ht, hsame', hsame'.valid, hsame'.reqReady⟩

end Sys2Proof.Machine
end

section
/-! PROOFS. A transaction edge by edge (70_reset_and_hazards.md R211, R212): the request transfer, the latency, the
response transfer. -/

namespace Sys2Proof.Machine

/-- A run takes its last edge last. -/
theorem run_succ_of_run {s t u : State} {k : Nat} (hrun : Host.Core.run core k s = .next t) (hstep : step t = .next u) :
    Host.Core.run core (k + 1) s = .next u := by
  induction k generalizing s with
  | zero =>
    obtain rfl : s = t := Host.Outcome.next.inj hrun
    rw [run_succ_of_step 0 hstep]
    rfl
  | succ k ih =>
    obtain ⟨v, hv⟩ := step_total s
    rw [run_succ_of_step k hv] at hrun
    rw [run_succ_of_step (k + 1) hv, ih hrun]

/-- `s` after `k` edges on which the latency ran, with the host's later levels `later` still to come. -/
def State.waited (s : State) (k : Nat) (later : List PortInputs) : State :=
  { s with wait := s.wait - k, inputs := later }

/-- As long as the latency lasts, an edge without reset only counts it down, whatever else the host drives. -/
theorem run_waiting {q : Request} (ws later : List PortInputs) {s : State} (hs : s.slot = .busy q) (ho : s.out = none)
    (hin : s.inputs = ws ++ later) (hrst : ∀ w ∈ ws, w.rst = false) (hw : ws.length < s.wait) :
    Host.Core.run core ws.length s = .next (s.waited ws.length later) := by
  induction ws generalizing s with
  | nil =>
    obtain rfl : s.inputs = later := hin
    rfl
  | cons w ws ih =>
    rw [List.length_cons] at hw
    have hstep : step s = .next s.afterSample.countDown :=
      step_of_waiting (by rw [State.sampled_of_inputs hin]; exact hrst w List.mem_cons_self) hs ho (by omega)
    have htail : s.afterSample.countDown.waited ws.length later = s.waited (ws.length + 1) later := by
      simp [State.waited, State.countDown, State.afterSample, Nat.sub_sub, Nat.add_comm]
    rw [List.length_cons, run_succ_of_step _ hstep, ← htail]
    exact ih hs ho (by simp [hin]) (fun v hv => hrst v (List.mem_cons_of_mem w hv)) (by simp; omega)

/-- The edge on which the latency runs out drives the response. -/
theorem run_latency {q : Request} (ws later : List PortInputs) {s : State} (hs : s.slot = .busy q) (ho : s.out = none)
    (hin : s.inputs = ws ++ later) (hrst : ∀ w ∈ ws, w.rst = false) (hw : ws.length = s.wait) (hpos : 1 ≤ s.wait) :
    Host.Core.run core ws.length s = .next ((s.waited ws.length later).drive (respond q)) := by
  obtain rfl | ⟨vs, w, rfl⟩ := ws.eq_nil_or_concat'
  case inl => simp at hw; omega
  case inr =>
    rw [List.length_append, List.length_singleton] at hw
    rw [List.append_assoc] at hin
    have hwait := run_waiting vs ([w] ++ later) hs ho hin (fun v hv => hrst v (List.mem_append_left [w] hv)) (by omega)
    have hdue : step (s.waited vs.length ([w] ++ later)) =
        .next ((s.waited vs.length ([w] ++ later)).afterSample.drive (respond q)) :=
      step_of_due (hrst w (by simp)) hs ho (by simp [State.waited]; omega)
    rw [List.length_append, List.length_singleton]
    exact run_succ_of_run hwait hdue

/-- Settles O46: the request transfer, then `run_waiting` for every earlier number of edges and `run_latency` for the
whole latency, then the response transfer. -/
theorem transactionTakesLatencyPlusTwoEdges : Obligations.TransactionTakesLatencyPlusTwoEdges := by
  intro s p d waits rest hs hin hrst hv hwaits hlen hdrst hdy
  have hp : s.sampled = p := State.sampled_of_inputs hin
  have hpos := latency_pos s.latGiven p.req.op
  have haccept : step s = .next (s.afterSample.accept p.req) := by
    simpa only [hp] using step_of_request (hp ▸ hrst) hs (hp ▸ hv)
  have hin' : (s.afterSample.accept p.req).inputs = waits ++ d :: rest := by simp [hin]
  have hresponse : Host.Core.run core (latency s.latGiven p.req.op + 1) s =
      .next (((s.afterSample.accept p.req).waited waits.length (d :: rest)).drive (respond p.req)) := by
    rw [run_succ_of_step _ haccept, ← hlen]
    exact run_latency waits (d :: rest) rfl rfl hin' hwaits hlen hpos
  refine ⟨hpos, fun j hj => ?_, ⟨_, by rw [Nat.add_comm]; exact hresponse, rfl, rfl⟩,
    ⟨_, run_succ_of_run hresponse (step_of_taken hdrst rfl rfl hdy), rfl, rfl, rfl, rfl, rfl⟩⟩
  have htake : (waits.take j).length = j := List.length_take_of_le (by omega)
  have hearly := run_waiting (waits.take j) (waits.drop j ++ d :: rest) (q := p.req)
    (s := s.afterSample.accept p.req) rfl rfl (by rw [hin', ← List.append_assoc, List.take_append_drop])
    (fun w hw => hwaits w (List.mem_of_mem_take hw)) (by rw [htake]; exact hj)
  rw [htake] at hearly
  exact ⟨_, by rw [Nat.add_comm, run_succ_of_step _ haccept]; exact hearly, rfl, rfl⟩

end Sys2Proof.Machine
end

section
/-! PROOFS. Coherence of the unit's state with its ports (20_memory.md sections 1 and 4): every move of the unit keeps
it, hence every edge does. -/

namespace Sys2Proof.Machine

namespace State.Coherent

variable {s : State} {q : Request}

theorem afterSample (h : s.Coherent) : s.afterSample.Coherent :=
  ⟨h.idle, h.driven, h.waiting, h.answered⟩

/-- A slot emptied with nothing driven and nothing awaited: all that is left of coherence is the record. -/
theorem of_idle (hs : s.slot = .empty) (ho : s.out = none) (hw : s.wait = 0)
    (hrec : ∀ q r, (q, r) ∈ s.transcript → r = respond q) : s.Coherent where
  idle _ := ⟨ho, hw⟩
  driven r hr := by rw [ho] at hr; cases hr
  waiting q hq := by rw [hs] at hq; cases hq
  answered := hrec

theorem resetUnit (h : s.Coherent) : s.resetUnit.Coherent :=
  of_idle rfl rfl rfl h.answered

/-- The response taken is the one driven, and that answers the request in the slot. -/
theorem release {r : Response} (h : s.Coherent) (hs : s.slot = .busy q) (ho : s.out = some r) :
    (s.release q r).Coherent := by
  have hanswer : r = respond q := h.drivesOwnResponse q r hs ho
  refine of_idle rfl rfl rfl fun q' r' hmem => ?_
  rw [State.release_transcript, List.mem_append, List.mem_singleton, Prod.mk.injEq] at hmem
  obtain hold | ⟨rfl, rfl⟩ := hmem
  · exact h.answered q' r' hold
  · exact hanswer

/-- The request transfer sets the counter to the whole latency, which is at least one edge. -/
theorem accept (h : s.Coherent) (q : Request) : (s.accept q).Coherent where
  idle hs := nomatch hs
  driven _ ho := nomatch ho
  waiting q' hs _ := by
    obtain rfl : q = q' := Slot.busy.inj hs
    exact ⟨latency_pos s.latGiven q.op, le_rfl⟩
  answered := h.answered

theorem drive (h : s.Coherent) (hs : s.slot = .busy q) : (s.drive (respond q)).Coherent where
  idle hempty := by rw [State.drive_slot, hs] at hempty; cases hempty
  driven r ho := ⟨rfl, q, hs, (Option.some.inj ho).symm⟩
  waiting _ _ ho := nomatch ho
  answered := h.answered

/-- With two edges or more to go, one is left after this one. -/
theorem countDown (h : s.Coherent) (hs : s.slot = .busy q) (ho : s.out = none) (hw : 1 < s.wait) :
    s.countDown.Coherent where
  idle hempty := by rw [State.countDown_slot, hs] at hempty; cases hempty
  driven r hr := by rw [State.countDown_out, ho] at hr; cases hr
  waiting q' hs' _ := by
    obtain ⟨-, hle⟩ := h.waiting q' hs' ho
    exact ⟨Nat.le_sub_one_of_lt hw, (Nat.sub_le s.wait 1).trans hle⟩
  answered := h.answered

end State.Coherent

/-- Settles O41, over everything an edge can do (`step_cases`): each is the sampling of the pins and then one move that
keeps coherence. -/
theorem everyEdgeKeepsCoherence : Obligations.EveryEdgeKeepsCoherence := by
  intro s t hcoh hstep
  have hin := hcoh.afterSample
  obtain ⟨-, rfl⟩ | ⟨-, -, -, rfl⟩ | ⟨-, -, -, rfl⟩ | ⟨q, r, -, hs, ho, -, rfl⟩ | ⟨q, r, -, -, -, -, rfl⟩ |
    ⟨q, -, hs, -, -, rfl⟩ | ⟨q, -, hs, ho, hw, rfl⟩ := step_cases hstep
  case inl => exact hin.resetUnit
  case inr.inl => exact hin.accept s.sampled.req
  case inr.inr.inl | inr.inr.inr.inr.inl => exact hin
  case inr.inr.inr.inl => exact hin.release hs ho
  case inr.inr.inr.inr.inr.inl => exact hin.drive hs
  case inr.inr.inr.inr.inr.inr => exact hin.countDown hs ho hw

/-- Settles O42: an idle state with an empty record. -/
theorem resetStateIsCoherent : Obligations.ResetStateIsCoherent :=
  State.Coherent.of_idle rfl rfl rfl fun _ _ hmem => nomatch hmem

end Sys2Proof.Machine
end

section
/-! PROOFS. What one edge does at the ports: the request transfer, the operation that is due, a condition's response
(20_memory.md R41 to R43, 60_exceptions.md R176). -/

namespace Sys2Proof.Machine

/-- Settles O39: the reset state, evaluated. -/
theorem resetStateIsIdle : Obligations.ResetStateIsIdle :=
  ⟨rfl, rfl, rfl, rfl⟩

/-- Settles O35: `step_total`. -/
theorem noEdgeStopsTheUnit : Obligations.NoEdgeStopsTheUnit := step_total

/-- Settles O34: the response is `responseTo i`, whatever the state. -/
theorem execOnlyDrivesAResponseOfItsOperands : Obligations.ExecOnlyDrivesAResponseOfItsOperands :=
  fun i => ⟨responseTo i, fun s => ⟨_, exec_eq_drive i s, rfl, rfl, rfl, rfl, rfl, rfl⟩⟩

theorem respond_of_decode_error {q : Request} {e : DecodeError} (h : decode q = .error e) :
    respond q = .raised .illegalOp := by
  rw [respond, h]

/-- Settles O33: the edge that is due drives the response of the request, which is that of the decoded instruction, or
`IllegalOp` when there is none. -/
theorem stepRunsTheDecodedInstruction : Obligations.StepRunsTheDecodedInstruction := by
  intro s q hs ho hw hrst
  have hdue := step_of_due hrst hs ho hw
  refine ⟨fun i hi => ?_, fun e he => ?_⟩
  · rw [hdue, respond_of_decode hi, exec_eq_drive]
  · rw [hdue, respond_of_decode_error he]
    rfl

theorem State.reqReady_iff (s : State) : s.reqReady = true ↔ s.slot = .empty := by
  rw [reqReady, beq_iff_eq]

/-- While BUSY the unit looks at `rst` and `rsp_ready` only (20_memory.md R42). -/
theorem edge_congr_of_busy {s : State} {q : Request} {p p' : PortInputs} (hs : s.slot = .busy q)
    (hrst : p.rst = p'.rst) (hy : p.rspReady = p'.rspReady) : edge p s = edge p' s := by
  simp only [edge, edgeBusy, hs, hrst, hy]

/-- Only resets and the response transfer take a request out of the slot, and none puts another in its place. -/
theorem step_slot_of_busy {s t : State} {q : Request} (hs : s.slot = .busy q) (hstep : step s = .next t) :
    t.slot = .busy q ∨ t.slot = .empty := by
  by_cases hkept : t.slot = s.slot
  · exact .inl (hkept.trans hs)
  · obtain ⟨-, hempty⟩ | ⟨-, hempty, -, -⟩ | ⟨_, _, -, -, -, -, hempty⟩ :=
      slotIsWrittenOnlyByTransfersAndReset s t hstep hkept
    · exact .inr hempty
    · rw [hs] at hempty
      cases hempty
    · exact .inr hempty

/-- Settles O36: the equations of an edge with the slot EMPTY, and `edge_congr_of_busy` and `step_slot_of_busy` while
BUSY. -/
theorem requestIsCapturedOnlyWhenTheSlotIsEmpty : Obligations.RequestIsCapturedOnlyWhenTheSlotIsEmpty :=
  ⟨State.reqReady_iff,
    fun _ hrst hs hv => ⟨_, step_of_request hrst hs hv, rfl, rfl, rfl, rfl, rfl, rfl, rfl⟩,
    fun _ => step_of_noRequest,
    fun s _ _ _ rest hs hrst hy => edge_congr_of_busy (s := { s with inputs := rest }) hs hrst hy,
    fun _ _ _ => step_slot_of_busy⟩

/-- Settles O32: the equations of an edge on which the response is due, held and taken, none of which asks whether the
response is a value or a condition. -/
theorem conditionCompletesLikeAResult : Obligations.ConditionCompletesLikeAResult := by
  refine ⟨fun s q c hs ho hw hrst hc => ?_, fun s q c hs ho hrst hy => step_of_held hrst hs ho hy,
    fun s q c v hs ho hrst hy => ?_⟩
  · have hdue := step_of_due hrst hs ho hw
    rw [hc] at hdue
    exact ⟨_, hdue, rfl, rfl, Response.word_status _, Response.word_resultBits _, hs, rfl, rfl, rfl⟩
  · have hok : step { s with out := some (.ok v) } = .next (State.release _ q (.ok v)) :=
      step_of_taken hrst hs rfl hy
    exact ⟨_, _, step_of_taken hrst hs ho hy, hok, rfl, rfl, rfl, rfl⟩

end Sys2Proof.Machine
end

section
/-! PROOFS. Runs without reset: a response becomes valid after the latency and is held until it is taken (20_memory.md
R43), also when the run is longer than its inputs; and a run does not depend on the history (20_memory.md R49). -/

namespace Sys2Proof.Machine

/-- What holds of all the levels the host still drives, and of an idle host, holds at the next edge. -/
theorem State.sampled_of_forall {P : PortInputs → Prop} {s : State} (h : ∀ p ∈ s.inputs, P p) (hidle : P .idle) :
    P s.sampled := by
  unfold State.sampled
  cases hin : s.inputs with
  | nil => exact hidle
  | cons p ps => exact h p (by rw [hin]; exact List.mem_cons_self)

/-- `run_waiting` for a host that drives no reset at all, be it an idle one after its last input. -/
theorem run_waiting_noReset {q : Request} (k : Nat) {s : State} (hs : s.slot = .busy q) (ho : s.out = none)
    (hin : ∀ p ∈ s.inputs, p.rst = false) (hk : k < s.wait) :
    Host.Core.run core k s = .next (s.waited k (s.inputs.drop k)) := by
  induction k with
  | zero => rfl
  | succ k ih =>
    have hrst : (s.waited k (s.inputs.drop k)).sampled.rst = false :=
      sampled_rst_of_noReset fun p hp => hin p (List.mem_of_mem_drop hp)
    have hwait : 1 < (s.waited k (s.inputs.drop k)).wait := Nat.lt_sub_of_add_lt (by omega)
    have hnext : (s.waited k (s.inputs.drop k)).afterSample.countDown = s.waited (k + 1) (s.inputs.drop (k + 1)) := by
      simp [State.waited, State.countDown, State.afterSample, Nat.sub_sub]
    rw [← hnext]
    exact run_succ_of_run (ih (Nat.lt_of_succ_lt hk)) (step_of_waiting hrst hs ho hwait)

/-- `run_latency` for a host that drives no reset at all. -/
theorem run_latency_noReset {q : Request} {s : State} (hs : s.slot = .busy q) (ho : s.out = none)
    (hin : ∀ p ∈ s.inputs, p.rst = false) (hpos : 1 ≤ s.wait) :
    Host.Core.run core s.wait s = .next ((s.waited s.wait (s.inputs.drop s.wait)).drive (respond q)) := by
  obtain ⟨k, hk⟩ : ∃ k, s.wait = k + 1 := ⟨s.wait - 1, by omega⟩
  have hrst : (s.waited k (s.inputs.drop k)).sampled.rst = false :=
    sampled_rst_of_noReset fun p hp => hin p (List.mem_of_mem_drop hp)
  have hwait : (s.waited k (s.inputs.drop k)).wait ≤ 1 := Nat.sub_le_iff_le_add.mpr (by omega)
  have hnext : (s.waited k (s.inputs.drop k)).afterSample.drive (respond q) =
      (s.waited (k + 1) (s.inputs.drop (k + 1))).drive (respond q) := by
    simp [State.waited, State.drive, State.afterSample]
  rw [hk, ← hnext]
  exact run_succ_of_run (run_waiting_noReset k hs ho hin (by omega)) (step_of_due hrst hs ho hwait)

/-- A host that is not ready and drives no reset leaves a valid response where it is, for any number of edges. -/
theorem run_held {q : Request} {r : Response} (k : Nat) {s : State} (hs : s.slot = .busy q) (ho : s.out = some r)
    (hin : ∀ p ∈ s.inputs, p.rst = false ∧ p.rspReady = false) :
    Host.Core.run core k s = .next { s with inputs := s.inputs.drop k } := by
  induction k with
  | zero => rfl
  | succ k ih =>
    obtain ⟨hrst, hy⟩ := State.sampled_of_forall (s := { s with inputs := s.inputs.drop k })
      (P := fun p => p.rst = false ∧ p.rspReady = false) (fun p hp => hin p (List.mem_of_mem_drop hp)) ⟨rfl, rfl⟩
    rw [← List.tail_drop]
    exact run_succ_of_run ih (step_of_held hrst hs ho hy)

/-- Settles O37: after the request transfer, `run_waiting_noReset` and `run_latency_noReset`; then the equations of an
edge, and `run_held`. -/
theorem responseIsHeldUntilTaken : Obligations.ResponseIsHeldUntilTaken := by
  refine ⟨fun s hs hrst hv hin => ⟨_, step_of_request hrst hs hv, fun j hj => ?_, ?_⟩,
    fun s q hs ho hrst hw => step_of_waiting hrst hs ho hw,
    fun s q hs ho hrst hw => step_of_due hrst hs ho hw,
    fun s q r hs ho hrst hy => ⟨_, step_of_taken hrst hs ho hy, rfl, rfl, rfl, rfl, rfl, rfl⟩,
    fun k s q r hs ho hin => ⟨_, run_held k hs ho hin, hs, ho, rfl⟩⟩
  all_goals have hin' : ∀ p ∈ (s.afterSample.accept s.sampled.req).inputs, p.rst = false :=
    fun p hp => hin p (List.mem_of_mem_tail hp)
  · exact ⟨_, run_waiting_noReset j rfl rfl hin' hj, rfl⟩
  · exact ⟨_, run_latency_noReset rfl rfl hin' (latency_pos ..), rfl, rfl⟩

/-- No move reads the record: the response transfer adds to it at the end, the others leave it. -/
theorem step_afterHistory {s t : State} (h : List (Request × Response)) (hstep : step s = .next t) :
    step (s.afterHistory h) = .next (t.afterHistory h) := by
  obtain ⟨hrst, rfl⟩ | ⟨hrst, hs, hv, rfl⟩ | ⟨hrst, hs, hv, rfl⟩ | ⟨q, r, hrst, hs, ho, hy, rfl⟩ |
    ⟨q, r, hrst, hs, ho, hy, rfl⟩ | ⟨q, hrst, hs, ho, hw, rfl⟩ | ⟨q, hrst, hs, ho, hw, rfl⟩ := step_cases hstep
  case inl => exact step_of_reset hrst
  case inr.inl => exact step_of_request hrst hs hv
  case inr.inr.inl => exact step_of_noRequest hrst hs hv
  case inr.inr.inr.inl =>
    have hrec : (s.afterHistory h).afterSample.release q r = (s.afterSample.release q r).afterHistory h := by
      simp [State.afterHistory, State.release, State.afterSample]
    rw [← hrec]
    exact step_of_taken hrst hs ho hy
  case inr.inr.inr.inr.inl => exact step_of_held hrst hs ho hy
  case inr.inr.inr.inr.inr.inl => exact step_of_due hrst hs ho hw
  case inr.inr.inr.inr.inr.inr => exact step_of_waiting hrst hs ho hw

/-- Settles O44: `step_afterHistory`, by induction on the number of edges. -/
theorem historyChangesNothing : Obligations.HistoryChangesNothing := by
  intro k h s
  induction k generalizing s with
  | zero => exact ⟨s, rfl, rfl⟩
  | succ k ih =>
    obtain ⟨u, hu⟩ := step_total s
    rw [run_succ_of_step k hu, run_succ_of_step k (step_afterHistory h hu)]
    exact ih u

end Sys2Proof.Machine
end

section
/-! PROOFS. The host's command scripts (30_encoding.md R75; 70_reset_and_hazards.md R213), one line at a time. -/

namespace Sys2Proof.Machine

section Lines

variable {n : Nat} {l : Line} {rest : List Line} {env env' : Env} {q : Request}

/-! ### What one line does -/

theorem runScript_cons_ok {v : Int64Value} (hreq : l.request env = .ok q) (hv : respond q = .ok v) :
    runScript n (l :: rest) env = runScript (n + 1) rest (env ++ [(l.name, v)]) := by
  rw [runScript, hreq]
  simp only [hv]

theorem runScript_cons_raised {c : Condition} (hreq : l.request env = .ok q) (hc : respond q = .raised c) :
    runScript n (l :: rest) env = .fault (.condition c n) := by
  rw [runScript, hreq]
  simp only [hc]

/-- A script ends normally only past a first line that has a request and a result. -/
theorem runScript_cons_next (h : runScript n (l :: rest) env = .next env') :
    ∃ q v, l.request env = .ok q ∧ respond q = .ok v ∧
      runScript (n + 1) rest (env ++ [(l.name, v)]) = .next env' := by
  cases hreq : l.request env with
  | error e =>
    rw [runScript, hreq] at h
    cases h
  | ok q =>
    cases hv : respond q with
    | ok v => exact ⟨q, v, rfl, hv, runScript_cons_ok hreq hv ▸ h⟩
    | raised c =>
      rw [runScript_cons_raised hreq hv] at h
      cases h

/-! ### Whole scripts -/

/-- Lines that run normally hand their bindings on to the lines after them. -/
theorem runScript_append {before : List Line} (rest : List Line) (h : runScript n before env = .next env') :
    runScript n (before ++ rest) env = runScript (n + before.length) rest env' := by
  induction before generalizing n env with
  | nil =>
    obtain rfl := Host.Outcome.next.inj h
    rfl
  | cons l before ih =>
    obtain ⟨q, v, hreq, hv, htail⟩ := runScript_cons_next h
    rw [List.cons_append, runScript_cons_ok hreq hv, ih htail, List.length_cons, Nat.add_assoc, Nat.add_comm 1]

end Lines

/-- Settles O47: `runScript_append` up to the line, then `runScript_cons_raised`. -/
theorem scriptStopsAtTheFirstCondition : Obligations.ScriptStopsAtTheFirstCondition := by
  intro n before after l env env' q c hbefore hreq hc
  rw [runScript_append (l :: after) hbefore, runScript_cons_raised hreq hc]

theorem Env.find_eq_none_iff (env : Env) (x : String) : Env.find env x = none ↔ x ∉ env.map Prod.fst := by
  simp only [Env.find, Option.map_eq_none_iff, List.find?_eq_none, beq_iff_eq, List.mem_map]
  exact ⟨fun h ⟨p, hp, hx⟩ => h p hp hx, fun h p hp hx => h ⟨p, hp, hx⟩⟩

/-- Settles O48, by induction on the lines: a line that is not refused has a name that nothing has bound
(`Line.request_ok`), and its binding goes to the end. -/
theorem scriptBindsEachNameOnce : Obligations.ScriptBindsEachNameOnce := by
  intro n lines env env' hdistinct hrun
  induction lines generalizing n env with
  | nil =>
    obtain rfl := Host.Outcome.next.inj hrun
    exact ⟨List.prefix_rfl, by simp, hdistinct⟩
  | cons l rest ih =>
    obtain ⟨q, v, hreq, -, htail⟩ := runScript_cons_next hrun
    obtain ⟨hfresh, -⟩ := Line.request_ok hreq
    rw [Env.find_eq_none_iff] at hfresh
    have hnames : (env ++ [(l.name, v)]).map Prod.fst = env.map Prod.fst ++ [l.name] := by simp
    have hdistinct' : ((env ++ [(l.name, v)]).map Prod.fst).Nodup := by
      rw [hnames, ← List.concat_eq_append]
      exact hdistinct.concat hfresh
    obtain ⟨hprefix, hadded, hnodup⟩ := ih (n + 1) (env ++ [(l.name, v)]) hdistinct' htail
    refine ⟨(List.prefix_append env _).trans hprefix, ?_, hnodup⟩
    rw [hadded, hnames, List.map_cons, List.append_assoc, List.singleton_append]

end Sys2Proof.Machine
end

section
/-! PROOFS. The opcode map's reserved values (30_encoding.md R68, 60_exceptions.md R174), words of the test vectors, and
the response word (30_encoding.md R70 to R72). -/

namespace Sys2Proof

/-- Between the rows of the opcode map lie the five reserved ranges. -/
theorem not_mem_definedOpcodes_iff (op : BitVec 8) : op ∉ definedOpcodes ↔
    op.toNat ≤ 0x0F ∨ (0x14 ≤ op.toNat ∧ op.toNat ≤ 0x1F) ∨ (0x22 ≤ op.toNat ∧ op.toNat ≤ 0x2F) ∨
    (0x34 ≤ op.toNat ∧ op.toNat ≤ 0x3F) ∨ 0x44 ≤ op.toNat := by
  simp only [definedOpcodes, List.mem_cons, List.not_mem_nil, or_false, ← BitVec.toNat_inj, BitVec.reduceToNat,
    BitVec.ofNat_eq_ofNat]
  omega

/-- 256 opcode values less the fourteen defined ones, counted in two halves. -/
theorem length_reservedOpcodes :
    ((List.range 256).filter fun n => BitVec.ofNat 8 n ∉ definedOpcodes).length = 242 := by
  have hhalves : List.range 256 = List.range 128 ++ (List.range 128).map (128 + ·) :=
    List.range_add (n := 128) (m := 128)
  have hlow : ((List.range 128).filter fun n => BitVec.ofNat 8 n ∉ definedOpcodes).length = 114 := rfl
  have hhigh : (((List.range 128).map (128 + ·)).filter fun n => BitVec.ofNat 8 n ∉ definedOpcodes).length = 128 := rfl
  rw [hhalves, List.filter_append, List.length_append, hlow, hhigh]

namespace Machine

/-- Settles O5: the ranges by `not_mem_definedOpcodes_iff`, the answer by `respond_eq_raised_iff`; the edges are those of
any other request. -/
theorem reservedOpcodesAreIllegal : Obligations.ReservedOpcodesAreIllegal := by
  refine ⟨not_mem_definedOpcodes_iff, length_reservedOpcodes, fun q => respond_eq_raised_iff q .illegalOp,
    fun s hs hrst hv _ => ⟨_, step_of_request hrst hs hv, rfl⟩, fun s q hs ho hw hrst hres => ?_,
    respond_reserved (by decide)⟩
  rw [step_of_due hrst hs ho hw, respond_reserved hres]

/-- Settles O6: the decoder, evaluated on each word. -/
theorem wordsOfTheSpecDecode : Obligations.WordsOfTheSpecDecode :=
  ⟨by decide, by decide, by decide, by decide, by decide, by decide, by decide, by decide⟩

/-! ### The response word and its reading -/

/-- A field below bit 64 of a result's word is the same field of the value's bits. -/
theorem Response.word_ok_field (v : Int64Value) {start len : Nat} (h : start + len ≤ 64) :
    (Response.ok v).word.extractLsb' start len = v.toBits.extractLsb' start len := by
  rw [word_ok]
  exact BitVec.extractLsb'_setWidth_of_le (by omega)

theorem responseOfWord_word (r : Response) : responseOfWord r.word = some r := by
  have hst : ResponseWord.status r.word = r.status := r.word_status
  have hres : ResponseWord.resultBits r.word = r.resultBits := r.word_resultBits
  cases r with
  | ok v => simp [responseOfWord, hst, hres, Response.status, Response.resultBits]
  | raised c => cases c <;> simp [responseOfWord, hst, Response.status, Condition.code]

theorem responseOfWord_eq_none_iff (w : ResponseWord) : responseOfWord w = none ↔ 0x05 ≤ (w.extractLsb' 64 8).toNat := by
  change _ ↔ 0x05 ≤ (ResponseWord.status w).toNat
  unfold responseOfWord
  split
  case h_6 h0 h1 h2 h3 h4 =>
    simp only [imp_false, ← BitVec.toNat_inj, BitVec.reduceToNat] at h0 h1 h2 h3 h4
    exact iff_of_true rfl (by omega)
  all_goals
    next hst => exact iff_of_false nofun (by rw [hst]; decide)

/-- Settles O7: the fields of the word (`Response.word_status`, `Response.word_ok_field`), the reading case by case, and
the bytes of the transport order (`getElem?_responseBytes`). -/
theorem responseWordsCarryStatusAndResult : Obligations.ResponseWordsCarryStatusAndResult := by
  refine ⟨fun v => ?_, fun c => ⟨Response.word_status _, Response.word_resultBits _⟩, rfl, rfl, rfl, rfl,
    responseOfWord_word, responseOfWord_eq_none_iff,
    fun w => ⟨getElem?_responseBytes w (by decide), fun k hk => ?_⟩⟩
  · obtain ⟨h0, h1, h2, h3⟩ := v.extractLsb'_toBits
    refine ⟨Response.word_status _, ?_⟩
    rw [Response.word_ok_field v (by decide), Response.word_ok_field v (by decide),
      Response.word_ok_field v (by decide), Response.word_ok_field v (by decide)]
    exact ⟨h0, h1, h2, h3⟩
  · have hpos : 64 - 8 * (k + 1) = 56 - 8 * k := by omega
    rw [getElem?_responseBytes w (Nat.succ_lt_succ hk), hpos]

end Machine

end Sys2Proof
end

section
/-! PROOFS. `FROML` (40_construct_compare.md R101). -/

namespace Sys2Proof.Machine

theorem exec_froml (x0 x1 x2 x3 : Nat) (s : State) :
    exec (.froml x0 x1 x2 x3) s = .next (s.drive (fromlResponse x0 x1 x2 x3)) :=
  exec_eq_drive (.froml x0 x1 x2 x3) s

theorem fromlResponse_ok {x0 x1 x2 x3 : Nat} (h0 : x0 ≤ 0xFFFF) (h1 : x1 ≤ 0xFFFF) (h2 : x2 ≤ 0xFFFF)
    (h3 : x3 ≤ 0xFFFF) : fromlResponse x0 x1 x2 x3 =
      .ok ⟨BitVec.ofNat 16 x0, BitVec.ofNat 16 x1, BitVec.ofNat 16 x2, BitVec.ofNat 16 x3⟩ := by
  simp [fromlResponse, limbTooLarge, Nat.not_lt.mpr h0, Nat.not_lt.mpr h1, Nat.not_lt.mpr h2, Nat.not_lt.mpr h3]

theorem toNat_ofNat_limb {x : Nat} (h : x ≤ 0xFFFF) : (BitVec.ofNat 16 x).toNat = x := by
  rw [BitVec.toNat_ofNat, Nat.mod_eq_of_lt (Nat.lt_succ_of_le h)]

/-- A 32-bit field exceeds 16 bits when its upper half is not zero. -/
theorem limb_lt_field32_iff {m : Nat} (x : BitVec m) (start : Nat) :
    0xFFFF < (x.extractLsb' start 32).toNat ↔ x.extractLsb' (start + 16) 16 ≠ 0 := by
  have hzero : (0 : BitVec 16).toNat = 0 := rfl
  rw [Ne, ← BitVec.toNat_inj, hzero]
  simp only [toNat_field, Nat.pow_add, ← Nat.div_div_eq_div_mul]
  omega

/-- Settles O9: the check of the raw limbs (`fromlResponse_eq_raised_iff`), on a request word read in their upper
halves. -/
theorem fromlBuildsOrRejects : Obligations.FromlBuildsOrRejects := by
  refine ⟨fun q hop => decode_froml hop, fun x0 x1 x2 x3 s h0 h1 h2 h3 => ?_, fun x0 x1 x2 x3 s hbad => ?_,
    fun q hop => ?_⟩
  · refine ⟨_, by rw [exec_froml, fromlResponse_ok h0 h1 h2 h3], ?_⟩
    exact ⟨toNat_ofNat_limb h0, toNat_ofNat_limb h1, toNat_ofNat_limb h2, toNat_ofNat_limb h3⟩
  · rw [exec_froml, (fromlResponse_eq_raised_iff ..).mpr ⟨rfl, hbad⟩]
  · calc respond q = .raised .invalidLimb ↔ Raises q .invalidLimb := respond_eq_raised_iff q .invalidLimb
      _ ↔ 0xFFFF < q.rawLimb 0 ∨ 0xFFFF < q.rawLimb 1 ∨ 0xFFFF < q.rawLimb 2 ∨ 0xFFFF < q.rawLimb 3 :=
        and_iff_right hop
      _ ↔ _ := or_congr (limb_lt_field32_iff q 96) <| or_congr (limb_lt_field32_iff q 64) <|
        or_congr (limb_lt_field32_iff q 32) (limb_lt_field32_iff q 0)

end Sys2Proof.Machine
end

section
/-! PROOFS. `FROMB` and its round trip with `TOB` (41_serialization.md R120, Laws). -/

namespace Sys2Proof

namespace Int64Value

variable (d0 d1 d2 d3 d4 d5 d6 d7 : Byte)

/-- Each limb is two bytes, the high one first, and so loses nothing at 16 bits. -/
theorem limbs_ofBytes (v : Int64Value) (hv : v = ofBytes d0 d1 d2 d3 d4 d5 d6 d7) :
    v.limb0.toNat = d0.toNat * 256 + d1.toNat ∧ v.limb1.toNat = d2.toNat * 256 + d3.toNat ∧
    v.limb2.toNat = d4.toNat * 256 + d5.toNat ∧ v.limb3.toNat = d6.toNat * 256 + d7.toNat := by
  have hlimb (hi lo : Byte) : (BitVec.ofNat 16 (hi.toNat * 256 + lo.toNat)).toNat = hi.toNat * 256 + lo.toNat := by
    have := hi.isLt; have := lo.isLt
    rw [BitVec.toNat_ofNat]
    omega
  subst hv
  exact ⟨hlimb d0 d1, hlimb d2 d3, hlimb d4 d5, hlimb d6 d7⟩

/-- The word view of eight bytes is the bytes side by side. -/
theorem toBits_ofBytes : (ofBytes d0 d1 d2 d3 d4 d5 d6 d7).toBits = packLanes d0 d1 d2 d3 d4 d5 d6 d7 := by
  obtain ⟨h0, h1, h2, h3⟩ := limbs_ofBytes d0 d1 d2 d3 d4 d5 d6 d7 _ rfl
  apply BitVec.eq_of_toNat_eq
  rw [toBits_toNat, h0, h1, h2, h3, packLanes_toNat]
  ring

theorem ofBytes_bytes (v : Int64Value) :
    ofBytes (v.byte 0) (v.byte 1) (v.byte 2) (v.byte 3) (v.byte 4) (v.byte 5) (v.byte 6) (v.byte 7) = v := by
  obtain ⟨h0, h1, h2, h3⟩ := limbs_ofBytes (v.byte 0) (v.byte 1) (v.byte 2) (v.byte 3) (v.byte 4) (v.byte 5)
    (v.byte 6) (v.byte 7) _ rfl
  obtain ⟨e0, e1, e2, e3⟩ := v.limbs_toNat_eq_bytes
  exact ext_toNat (h0.trans e0.symm) (h1.trans e1.symm) (h2.trans e2.symm) (h3.trans e3.symm)

/-- The two bytes of a number are determined by it. -/
theorem bytes_unique {hi lo hi' lo' : Byte} (h : hi.toNat * 256 + lo.toNat = hi'.toNat * 256 + lo'.toNat) :
    hi = hi' ∧ lo = lo' := by
  have := lo.isLt; have := lo'.isLt
  rw [← BitVec.toNat_inj, ← BitVec.toNat_inj]
  omega

theorem bytes_ofBytes (v : Int64Value) (hv : v = ofBytes d0 d1 d2 d3 d4 d5 d6 d7) :
    v.byte 0 = d0 ∧ v.byte 1 = d1 ∧ v.byte 2 = d2 ∧ v.byte 3 = d3 ∧
    v.byte 4 = d4 ∧ v.byte 5 = d5 ∧ v.byte 6 = d6 ∧ v.byte 7 = d7 := by
  obtain ⟨h0, h1, h2, h3⟩ := limbs_ofBytes d0 d1 d2 d3 d4 d5 d6 d7 v hv
  obtain ⟨e0, e1, e2, e3⟩ := v.limbs_toNat_eq_bytes
  obtain ⟨b0, b1⟩ := bytes_unique (e0.symm.trans h0)
  obtain ⟨b2, b3⟩ := bytes_unique (e1.symm.trans h1)
  obtain ⟨b4, b5⟩ := bytes_unique (e2.symm.trans h2)
  obtain ⟨b6, b7⟩ := bytes_unique (e3.symm.trans h3)
  exact ⟨b0, b1, b2, b3, b4, b5, b6, b7⟩

end Int64Value

namespace Machine

theorem exec_fromb (len : Nat) (d0 d1 d2 d3 d4 d5 d6 d7 : Byte) (s : State) :
    exec (.fromb len d0 d1 d2 d3 d4 d5 d6 d7) s = .next (s.drive (frombResponse len d0 d1 d2 d3 d4 d5 d6 d7)) :=
  exec_eq_drive (.fromb len d0 d1 d2 d3 d4 d5 d6 d7) s

theorem frombResponse_eight (d0 d1 d2 d3 d4 d5 d6 d7 : Byte) :
    frombResponse 8 d0 d1 d2 d3 d4 d5 d6 d7 = .ok (.ofBytes d0 d1 d2 d3 d4 d5 d6 d7) :=
  if_neg (fun h => h rfl)

/-- Settles O13: the length check (`frombResponse_eq_raised_iff`); the lanes of a request word are its field `A`, so an OK
response carries that field. -/
theorem frombReadsExactlyEightBytes : Obligations.FrombReadsExactlyEightBytes := by
  refine ⟨fun q hop => decode_fromb hop, fun d0 d1 d2 d3 d4 d5 d6 d7 s => ?_,
    fun len d0 d1 d2 d3 d4 d5 d6 d7 s hlen => ?_, fun q hop hlen => ?_⟩
  · exact ⟨_, by rw [exec_fromb, frombResponse_eight], Int64Value.limbs_ofBytes d0 d1 d2 d3 d4 d5 d6 d7 _ rfl⟩
  · rw [exec_fromb, (frombResponse_eq_raised_iff ..).mpr ⟨rfl, hlen⟩]
  · have hnative : q.native = 8 := congrArg BitVec.toNat hlen
    rw [respond_of_decode (decode_fromb hop), responseTo, hnative, frombResponse_eight, Response.word_ok,
      Int64Value.toBits_ofBytes, q.packLanes_fieldA]
    rfl

/-- Settles O15: `FROMB` builds `ofBytes`, which inverts the byte view from both sides (`bytes_ofBytes`,
`ofBytes_bytes`). -/
theorem serializationRoundTrips : Obligations.SerializationRoundTrips := by
  refine ⟨fun d0 d1 d2 d3 d4 d5 d6 d7 s => ?_, fun v s => ?_⟩
  · exact ⟨_, by rw [exec_fromb, frombResponse_eight], exec_tob _ s,
      Int64Value.bytes_ofBytes d0 d1 d2 d3 d4 d5 d6 d7 _ rfl⟩
  · rw [exec_fromb, frombResponse_eight, Int64Value.ofBytes_bytes]

end Machine

end Sys2Proof
end

section
/-! PROOFS. The laws of the arithmetic family (42_arithmetic.md), each an equality of `val`s modulo `2^64`. -/

namespace Sys2Proof

theorem Int64Value.eq_limbs_of_val {a : Int64Value} {v : Nat} (h : a.val = v) : a = .limbs v := by
  rw [← h, limbs_val]

namespace Machine

/-- Settles O16: the values of the four datapaths. -/
theorem arithmeticIsModulo2To64 : Obligations.ArithmeticIsModulo2To64 := by
  refine ⟨fun a b s => ?_, fun a n s hn => ?_, fun a n s => ?_, fun a b s => ?_⟩
  · rw [exec_add, Int64Value.eq_limbs_of_val (val_addValue a b)]
  · rw [exec_adds, Int64Value.eq_limbs_of_val (val_addsValue hn a)]
  · rw [exec_muls, Int64Value.eq_limbs_of_val (val_mulsValue a n)]
  · rw [exec_mul, Int64Value.eq_limbs_of_val (val_mulValue a b)]

theorem addValue_zero (a : Int64Value) : addValue a .zero = a := by
  apply Int64Value.eq_of_val_eq
  have hzero : Int64Value.zero.val = 0 := rfl
  rw [val_addValue, hzero, Nat.add_zero, Nat.mod_eq_of_lt a.val_lt]

theorem addValue_assoc (a b c : Int64Value) : addValue (addValue a b) c = addValue a (addValue b c) := by
  apply Int64Value.eq_of_val_eq
  simp only [val_addValue, Nat.mod_add_mod, Nat.add_mod_mod, Nat.add_assoc]

theorem mulsValue_zero (a : Int64Value) : mulsValue a 0 = .zero := by
  apply Int64Value.eq_of_val_eq
  rw [val_mulsValue, Nat.mul_zero]
  rfl

theorem mulValue_assoc (a b c : Int64Value) : mulValue (mulValue a b) c = mulValue a (mulValue b c) := by
  apply Int64Value.eq_of_val_eq
  simp only [val_mulValue, Nat.mod_mul_mod, Nat.mul_mod_mod, Nat.mul_assoc]

theorem mulValue_addValue (a b c : Int64Value) :
    mulValue a (addValue b c) = addValue (mulValue a b) (mulValue a c) := by
  apply Int64Value.eq_of_val_eq
  simp only [val_mulValue, val_addValue, Nat.mul_mod_mod, Nat.mod_add_mod, Nat.add_mod_mod, Nat.mul_add]

/-- Settles O21: the laws of the integers modulo `2^64`, and the small forms on the limbs of the native. -/
theorem arithmeticLaws : Obligations.ArithmeticLaws :=
  ⟨addValue_zero, by decide, addValue_comm, addValue_assoc, mulsValue_zero,
    fun _ hn => (mulsValue_one hn).trans (addsValue_zero hn).symm, mulValue_comm, mulValue_assoc, mulValue_addValue,
    fun _ _ _ => rfl, fun a _ hn => (mulValue_limbsOfNative hn a).symm⟩

/-! ### `MUL` from shifted `MULS` products -/

/-- `SHL (MULS a, n), k`, the partial product of a limb at its weight (42_arithmetic.md R137). -/
def shiftedProduct (a : Int64Value) (n k : Nat) : Int64Value :=
  .limbs ((mulsValue a n).val * 2 ^ k % 2 ^ 64)

theorem exec_shl_mulsValue {k : Nat} (hk : k < 64) (a : Int64Value) (n : Nat) (s : State) :
    exec (.shl (mulsValue a n) k) s = .next (s.drive (.ok (shiftedProduct a n k))) := by
  rw [exec_shl, shlResponse_natCast hk, shiftedProduct]

theorem val_shiftedProduct (a : Int64Value) (n k : Nat) :
    (shiftedProduct a n k).val = a.val * n * 2 ^ k % 2 ^ 64 := by
  rw [shiftedProduct, Int64Value.val_limbs, Nat.mod_mod, val_mulsValue, Nat.mod_mul_mod]

theorem mulValue_eq_sum_shiftedProduct (a b : Int64Value) : mulValue a b =
    addValue (addValue (addValue (shiftedProduct a b.limb3.toNat 0) (shiftedProduct a b.limb2.toNat 16))
      (shiftedProduct a b.limb1.toNat 32)) (shiftedProduct a b.limb0.toNat 48) := by
  apply Int64Value.eq_of_val_eq
  simp only [val_mulValue, val_addValue, val_shiftedProduct, Nat.mod_add_mod, Nat.add_mod_mod]
  congr 1
  simp only [Int64Value.val]
  ring

/-- Settles O22: `val b` is the sum of its limbs at their weights, so the product is the sum of the shifted products. -/
theorem mulIsTheSumOfShiftedSmallProducts : Obligations.MulIsTheSumOfShiftedSmallProducts := by
  intro a b s
  refine ⟨_, _, _, _, _, _, _, _, exec_muls a b.limb0.toNat s, exec_shl_mulsValue (k := 48) (by decide) ..,
    exec_muls a b.limb1.toNat s, exec_shl_mulsValue (k := 32) (by decide) ..,
    exec_muls a b.limb2.toNat s, exec_shl_mulsValue (k := 16) (by decide) ..,
    exec_muls a b.limb3.toNat s, exec_shl_mulsValue (k := 0) (by decide) .., ?_⟩
  rw [exec_mul, mulValue_eq_sum_shiftedProduct]

end Machine

end Sys2Proof
end

section
/-! PROOFS. The amount and the words of the four bitwise operations (43_bitwise.md R151 to R155). -/

namespace Sys2Proof.Machine

/-- The low six bits of a two's-complement number are its residue modulo 64. -/
theorem rotateAmount_amount (q : Request) : rotateAmount q.amount = (q.extractLsb' 128 6).toNat := by
  have := q.imm.isLt
  have himm : q.imm.toNat % 64 = (q.extractLsb' 128 6).toNat := by
    simp only [Request.imm, toNat_field]
    omega
  rw [← himm, rotateAmount, Request.amount, Config.rotateModulus, BitVec.toInt_eq_toNat_cond]
  split <;> omega

/-- Settles O23: `rotateAmount_amount` and `amount_invalid_iff`. -/
theorem amountIsReducedOrChecked : Obligations.AmountIsReducedOrChecked :=
  ⟨rotateAmount_amount, fun q => amount_invalid_iff q.imm⟩

theorem exec_rotl (a : Int64Value) (n : Int) (s : State) : exec (.rotl a n) s = .next (s.drive (.ok (rotlValue a n))) :=
  exec_eq_drive (.rotl a n) s

theorem exec_rotr (a : Int64Value) (n : Int) (s : State) : exec (.rotr a n) s = .next (s.drive (.ok (rotrValue a n))) :=
  exec_eq_drive (.rotr a n) s

theorem exec_shr (a : Int64Value) (n : Int) (s : State) : exec (.shr a n) s = .next (s.drive (shrResponse a n)) :=
  exec_eq_drive (.shr a n) s

/-! ### Rotations -/

theorem rotlValue_of_amount_zero {n : Int} (h : rotateAmount n = 0) (a : Int64Value) : rotlValue a n = a :=
  if_pos h

theorem rotrValue_of_amount_zero {n : Int} (h : rotateAmount n = 0) (a : Int64Value) : rotrValue a n = a :=
  if_pos h

/-- Nothing is left of a value after 64 places to the right. -/
theorem val_shiftRight_64 (a : Int64Value) : a.val >>> 64 = 0 := by
  rw [Nat.shiftRight_eq_div_pow, Nat.div_eq_of_lt a.val_lt]

/-- The explicit case of amount 0 gives what the formula for the other amounts gives. -/
theorem val_rotlValue (a : Int64Value) (n : Int) : (rotlValue a n).val =
    ((a.val <<< rotateAmount n) % 2 ^ 64) ||| (a.val >>> (64 - rotateAmount n)) := by
  by_cases h : rotateAmount n = 0
  · rw [rotlValue_of_amount_zero h, h, Nat.shiftLeft_zero, Nat.mod_eq_of_lt a.val_lt, Nat.sub_zero,
      val_shiftRight_64, Nat.or_zero]
  · have hleft : (a.val <<< rotateAmount n) % 2 ^ 64 < 2 ^ 64 := Nat.mod_lt _ (by decide)
    have hright : a.val >>> (64 - rotateAmount n) < 2 ^ 64 := (Nat.shiftRight_le ..).trans_lt a.val_lt
    rw [rotlValue, if_neg h, Int64Value.val_limbs_of_lt (Nat.or_lt_two_pow hleft hright)]

theorem val_rotrValue (a : Int64Value) (n : Int) : (rotrValue a n).val =
    (a.val >>> rotateAmount n) ||| ((a.val <<< (64 - rotateAmount n)) % 2 ^ 64) := by
  by_cases h : rotateAmount n = 0
  · rw [rotrValue_of_amount_zero h, h, Nat.shiftRight_zero, Nat.sub_zero, Nat.shiftLeft_eq, Nat.mul_mod_left,
      Nat.or_zero]
  · have hright : a.val >>> rotateAmount n < 2 ^ 64 := (Nat.shiftRight_le ..).trans_lt a.val_lt
    have hleft : (a.val <<< (64 - rotateAmount n)) % 2 ^ 64 < 2 ^ 64 := Nat.mod_lt _ (by decide)
    rw [rotrValue, if_neg h, Int64Value.val_limbs_of_lt (Nat.or_lt_two_pow hright hleft)]

theorem toBits_rotlValue (a : Int64Value) (n : Int) :
    (rotlValue a n).toBits = a.toBits.rotateLeft (rotateAmount n) := by
  apply BitVec.eq_of_toNat_eq
  rw [BitVec.toNat_rotateLeft, Nat.mod_eq_of_lt (rotateAmount_lt n), Int64Value.toBits_toNat_eq_val,
    Int64Value.toBits_toNat_eq_val, val_rotlValue]

theorem toBits_rotrValue (a : Int64Value) (n : Int) :
    (rotrValue a n).toBits = a.toBits.rotateRight (rotateAmount n) := by
  apply BitVec.eq_of_toNat_eq
  rw [BitVec.toNat_rotateRight, Nat.mod_eq_of_lt (rotateAmount_lt n), Int64Value.toBits_toNat_eq_val,
    Int64Value.toBits_toNat_eq_val, val_rotrValue]

/-- Settles O24: the formula (`val_rotlValue`) and the rotation of the word (`toBits_rotlValue`). -/
theorem rotlRotatesTheWordLeft : Obligations.RotlRotatesTheWordLeft := by
  refine ⟨fun q hop => ⟨q.valueA, decode_rotl hop, q.toBits_valueA⟩, fun a n s => ?_⟩
  exact ⟨rotlValue a n, exec_rotl a n s, fun h => rotlValue_of_amount_zero (congrArg Int.toNat h) a,
    fun _ => val_rotlValue a n, toBits_rotlValue a n⟩

/-- Settles O25: the formula (`val_rotrValue`) and the rotation of the word (`toBits_rotrValue`). -/
theorem rotrRotatesTheWordRight : Obligations.RotrRotatesTheWordRight := by
  refine ⟨fun q hop => ⟨q.valueA, decode_rotr hop, q.toBits_valueA⟩, fun a n s => ?_⟩
  exact ⟨rotrValue a n, exec_rotr a n s, fun h => rotrValue_of_amount_zero (congrArg Int.toNat h) a,
    fun _ => val_rotrValue a n, toBits_rotrValue a n⟩

/-! ### Shifts -/

/-- The explicit case of amount 64 gives what the formula for the smaller amounts gives. -/
theorem shlResponse_of_range {n : Int} (h0 : 0 ≤ n) (h64 : n ≤ 64) (a : Int64Value) :
    shlResponse a n = .ok (.limbs ((a.val <<< n.toNat) % 2 ^ 64)) := by
  rw [shlResponse, if_neg (by unfold Config.maxShift; omega)]
  split
  next hlast =>
    rw [hlast, Nat.shiftLeft_eq, show Config.maxShift.toNat = 64 from rfl, Nat.mul_mod_left]
    rfl
  next => rfl

theorem shrResponse_of_range {n : Int} (h0 : 0 ≤ n) (h64 : n ≤ 64) (a : Int64Value) :
    shrResponse a n = .ok (.limbs (a.val >>> n.toNat)) := by
  rw [shrResponse, if_neg (by unfold Config.maxShift; omega)]
  split
  next hlast =>
    rw [hlast, show Config.maxShift.toNat = 64 from rfl, val_shiftRight_64]
    rfl
  next => rfl

theorem val_limbs_shiftLeft (a : Int64Value) (k : Nat) :
    (Int64Value.limbs ((a.val <<< k) % 2 ^ 64)).val = (a.val <<< k) % 2 ^ 64 :=
  Int64Value.val_limbs_of_lt (Nat.mod_lt _ (by decide))

theorem val_limbs_shiftRight (a : Int64Value) (k : Nat) : (Int64Value.limbs (a.val >>> k)).val = a.val >>> k :=
  Int64Value.val_limbs_of_lt ((Nat.shiftRight_le ..).trans_lt a.val_lt)

/-- Settles O26: the range check (`shlResponse_eq_raised_iff`) and the formula in the range (`shlResponse_of_range`). -/
theorem shlShiftsLeftOrRejects : Obligations.ShlShiftsLeftOrRejects := by
  refine ⟨fun q hop => ⟨q.valueA, decode_shl hop, q.toBits_valueA⟩, fun a n s hbad => ?_, fun a n s h0 h64 => ?_⟩
  · rw [exec_shl, (shlResponse_eq_raised_iff a n _).mpr ⟨rfl, hbad⟩]
  · refine ⟨_, by rw [exec_shl, shlResponse_of_range h0 h64], ?_, val_limbs_shiftLeft a n.toNat, ?_⟩
    · rintro rfl
      exact (Response.ok.inj (shlResponse_of_range h0 h64 a)).symm
    · apply BitVec.eq_of_toNat_eq
      rw [BitVec.toNat_shiftLeft, Int64Value.toBits_toNat_eq_val, Int64Value.toBits_toNat_eq_val, val_limbs_shiftLeft]

/-- Settles O27: the range check (`shrResponse_eq_raised_iff`) and the formula in the range (`shrResponse_of_range`). -/
theorem shrShiftsRightOrRejects : Obligations.ShrShiftsRightOrRejects := by
  refine ⟨fun q hop => ⟨q.valueA, decode_shr hop, q.toBits_valueA⟩, fun a n s hbad => ?_, fun a n s h0 h64 => ?_⟩
  · rw [exec_shr, (shrResponse_eq_raised_iff a n _).mpr ⟨rfl, hbad⟩]
  · refine ⟨_, by rw [exec_shr, shrResponse_of_range h0 h64], ?_, val_limbs_shiftRight a n.toNat, ?_⟩
    · rintro rfl
      exact (Response.ok.inj (shrResponse_of_range h0 h64 a)).symm
    · apply BitVec.eq_of_toNat_eq
      rw [BitVec.toNat_ushiftRight, Int64Value.toBits_toNat_eq_val, Int64Value.toBits_toNat_eq_val,
        val_limbs_shiftRight]

/-! ### Shifts there and back -/

/-- Moving left by `k` and cutting at `2^64` keeps the low `64 - k` bits. -/
theorem shiftLeft_mod_two_pow_64 (v : Nat) {k : Nat} (hk : k ≤ 64) :
    (v <<< k) % 2 ^ 64 = 2 ^ k * (v % 2 ^ (64 - k)) := by
  have hsplit : 2 ^ 64 = 2 ^ k * 2 ^ (64 - k) := by rw [← Nat.pow_add, Nat.add_sub_cancel' hk]
  rw [Nat.shiftLeft_eq, hsplit, Nat.mul_comm v, Nat.mul_mod_mul_left]

theorem val_shr_shl (a : Int64Value) {k : Nat} (hk : k ≤ 64) :
    (Int64Value.limbs ((Int64Value.limbs ((a.val <<< k) % 2 ^ 64)).val >>> k)).val = a.val % 2 ^ (64 - k) := by
  rw [val_limbs_shiftRight, val_limbs_shiftLeft, shiftLeft_mod_two_pow_64 _ hk, Nat.shiftRight_eq_div_pow,
    Nat.mul_div_cancel_left _ (Nat.two_pow_pos k)]

theorem val_shl_shr (a : Int64Value) (k : Nat) :
    (Int64Value.limbs (((Int64Value.limbs (a.val >>> k)).val <<< k) % 2 ^ 64)).val = a.val - a.val % 2 ^ k := by
  have hback : a.val / 2 ^ k * 2 ^ k = a.val - a.val % 2 ^ k := by
    rw [Nat.mul_comm, Nat.mul_div_self_eq_mod_sub_self]
  rw [val_limbs_shiftLeft, val_limbs_shiftRight, Nat.shiftRight_eq_div_pow, Nat.shiftLeft_eq, hback,
    Nat.mod_eq_of_lt ((Nat.sub_le ..).trans_lt a.val_lt)]

/-- The two shifted parts of a rotated word do not overlap, so joining them is adding them. -/
theorem rotlValue_eq_addValue (a : Int64Value) {k : Nat} (hk : k < 64) : rotlValue a k =
    addValue (.limbs ((a.val <<< k) % 2 ^ 64)) (.limbs (a.val >>> (64 - k))) := by
  have hamount : rotateAmount k = k := by unfold rotateAmount Config.rotateModulus; omega
  have hlow : a.val >>> (64 - k) < 2 ^ k := by
    rw [Nat.shiftRight_eq_div_pow]
    apply Nat.div_lt_of_lt_mul
    rw [← Nat.pow_add, Nat.sub_add_cancel hk.le]
    exact a.val_lt
  have hsum : (rotlValue a k).val = (a.val <<< k) % 2 ^ 64 + a.val >>> (64 - k) := by
    rw [val_rotlValue, hamount, shiftLeft_mod_two_pow_64 _ hk.le, Nat.two_pow_add_eq_or_of_lt hlow]
  apply Int64Value.eq_of_val_eq
  rw [val_addValue, val_limbs_shiftLeft, val_limbs_shiftRight, ← hsum, Nat.mod_eq_of_lt (Int64Value.val_lt _)]

/-- Settles O30: the shifts by their formulas, there and back (`val_shr_shl`, `val_shl_shr`), and
`rotlValue_eq_addValue`. -/
theorem shiftLaws : Obligations.ShiftLaws := by
  refine ⟨fun a n h0 h64 => ?_, fun a r h1 h63 => ?_⟩
  · exact ⟨_, _, _, _, shlResponse_of_range h0 h64 a, shrResponse_of_range h0 h64 _, val_shr_shl a (by omega),
      shrResponse_of_range h0 h64 a, shlResponse_of_range h0 h64 _, val_shl_shr a n.toNat⟩
  · obtain ⟨k, rfl⟩ := Int.eq_ofNat_of_zero_le (Int.le_of_lt h1)
    have hright : (64 - (k : Int)).toNat = 64 - k := by omega
    have hshr := shrResponse_of_range (n := 64 - k) (by omega) (by omega) a
    rw [hright] at hshr
    exact ⟨_, _, shlResponse_of_range (by omega) (by omega) a, hshr, rotlValue_eq_addValue a (by omega)⟩

end Sys2Proof.Machine
end

section
/-! PROOFS. The bits of a value by an integer index: each bitwise operation moves them, on the word and on the limbs alike
(43_bitwise.md R156, Laws). -/

namespace Sys2Proof

namespace Int64Value

/-! ### The two bit views, as `limbAt` and `limbMod` are the two limb views -/

/-- Bit `i` of the word, 0 outside `0 .. 63`: the bit view that shifts move. -/
def bitAt (a : Int64Value) (i : Int) : Bool := decide (0 ≤ i) && a.val.testBit i.toNat

/-- Bit `i` of the word with indices modulo 64: the bit view that rotates move. -/
def bitMod (a : Int64Value) (i : Int) : Bool := a.bitAt (i % 64)

@[simp] theorem bitAt_natCast (a : Int64Value) (k : Nat) : a.bitAt k = a.val.testBit k := by
  simp [bitAt]

theorem bitAt_of_neg (a : Int64Value) {i : Int} (h : i < 0) : a.bitAt i = false := by
  simp [bitAt, Int.not_le.mpr h]

theorem testBit_val_of_le (a : Int64Value) {k : Nat} (h : 64 ≤ k) : a.val.testBit k = false :=
  Nat.testBit_lt_two_pow (a.val_lt.trans_le (Nat.pow_le_pow_right (by decide) h))

theorem bitAt_of_le (a : Int64Value) {i : Int} (h : 64 ≤ i) : a.bitAt i = false := by
  rw [bitAt, a.testBit_val_of_le (by omega), Bool.and_false]

theorem bitMod_of_range (a : Int64Value) {i : Int} (h0 : 0 ≤ i) (h : i < 64) : a.bitMod i = a.bitAt i := by
  rw [bitMod, Int.emod_eq_of_lt h0 h]

theorem bitMod_congr (a : Int64Value) {i j : Int} (h : i % 64 = j % 64) : a.bitMod i = a.bitMod j := by
  rw [bitMod, bitMod, h]

/-- A value is its 64 bits. -/
theorem eq_of_bitAt_eq {a b : Int64Value} (h : ∀ k : Nat, k < 64 → a.bitAt k = b.bitAt k) : a = b := by
  apply eq_of_val_eq
  apply Nat.eq_of_testBit_eq
  intro k
  by_cases hk : k < 64
  · simpa using h k hk
  · rw [a.testBit_val_of_le (Nat.le_of_not_lt hk), b.testBit_val_of_le (Nat.le_of_not_lt hk)]

theorem eq_of_bitMod_eq {a b : Int64Value} (h : ∀ i, a.bitMod i = b.bitMod i) : a = b := by
  refine eq_of_bitAt_eq fun k hk => ?_
  rw [← a.bitMod_of_range (by omega) (by omega), ← b.bitMod_of_range (by omega) (by omega), h]

/-! ### The bits of a limb are bits of the word -/

/-- A limb lies at a multiple of 16 in the word. -/
theorem testBit_limb {a : Int64Value} {limb : Limb} {start : Nat} (h : a.toBits.extractLsb' start 16 = limb) (k : Nat) :
    limb.toNat.testBit k = (decide (k < 16) && a.bitAt (start + k : Nat)) := by
  rw [← h, BitVec.testBit_toNat, BitVec.getLsbD_extractLsb', bitAt_natCast, ← toBits_toNat_eq_val,
    BitVec.testBit_toNat]

end Int64Value

namespace Machine

/-- The limb sources of the shifter against a bit view: bit `k` of limb `x` is bit `16 * (3 - x) + k`, and a limb has 16
bits. -/
def LimbsCarryBits (src : Int → Nat) (bit : Int → Bool) : Prop :=
  ∀ (x : Int) (k : Nat), (src x).testBit k = (decide (k < 16) && bit (16 * (3 - x) + k))

theorem limbAt_carriesBits (a : Int64Value) : LimbsCarryBits a.limbAt a.bitAt := by
  obtain ⟨h0, h1, h2, h3⟩ := a.extractLsb'_toBits
  intro x k
  unfold Int64Value.limbAt
  split_ifs with e0 e1 e2 e3
  · subst e0; exact Int64Value.testBit_limb h0 k
  · subst e1; exact Int64Value.testBit_limb h1 k
  · subst e2; exact Int64Value.testBit_limb h2 k
  · subst e3; simpa using Int64Value.testBit_limb h3 k
  · rw [Nat.zero_testBit]
    by_cases hk : k < 16
    · have hout : a.bitAt (16 * (3 - x) + k) = false := by
        obtain hneg | hle : 16 * (3 - x) + (k : Int) < 0 ∨ 64 ≤ 16 * (3 - x) + (k : Int) := by omega
        · exact a.bitAt_of_neg hneg
        · exact a.bitAt_of_le hle
      rw [hout, Bool.and_false]
    · rw [decide_eq_false hk, Bool.false_and]

/-- Limb indices modulo 4 are bit indices modulo 64. -/
theorem limbMod_carriesBits (a : Int64Value) : LimbsCarryBits a.limbMod a.bitMod := by
  intro x k
  rw [Int64Value.limbMod, limbAt_carriesBits]
  by_cases hk : k < 16
  · rw [Int64Value.bitMod]
    congr 2
    omega
  · rw [decide_eq_false hk, Bool.false_and, Bool.false_and]

/-! ### The limb-level shifter moves bits -/

theorem testBit_and_0xFFFF (v k : Nat) : (v &&& 0xFFFF).testBit k = (decide (k < 16) && v.testBit k) := by
  rw [and_0xFFFF, show 65536 = 2 ^ 16 from rfl, Nat.testBit_mod_two_pow]

section Limbs

variable {src : Int → Nat} {bit : Int → Bool}

/-- The two source limbs of a result limb are neighbours in the word, so its bits come `m` places from the right. -/
theorem getLsbD_leftLimb (h : LimbsCarryBits src bit) (m : Nat) (i : Int) {k : Nat} (hk : k < 16) :
    (leftLimb src m i).getLsbD k = bit (16 * (3 - i) + k - m) := by
  unfold leftLimb
  simp only
  split_ifs with hs
  · rw [BitVec.getLsbD_ofNat, h, decide_eq_true hk, Bool.true_and, Bool.true_and]
    congr 1
    omega
  · rw [BitVec.getLsbD_ofNat, testBit_and_0xFFFF, Nat.testBit_or, Nat.testBit_shiftLeft, Nat.testBit_shiftRight, h, h,
      decide_eq_true hk, Bool.true_and, Bool.true_and]
    by_cases hks : m % 16 ≤ k
    · have hhigh : ¬ 16 - m % 16 + k < 16 := by omega
      have hlow : k - m % 16 < 16 := by omega
      rw [decide_eq_true hks, decide_eq_true hlow, decide_eq_false hhigh, Bool.true_and, Bool.true_and,
        Bool.false_and, Bool.or_false]
      congr 1
      omega
    · have hhigh : 16 - m % 16 + k < 16 := by omega
      rw [decide_eq_false hks, decide_eq_true hhigh, Bool.false_and, Bool.false_or, Bool.true_and]
      congr 1
      omega

theorem getLsbD_rightLimb (h : LimbsCarryBits src bit) (m : Nat) (i : Int) {k : Nat} (hk : k < 16) :
    (rightLimb src m i).getLsbD k = bit (16 * (3 - i) + k + m) := by
  unfold rightLimb
  simp only
  split_ifs with hs
  · rw [BitVec.getLsbD_ofNat, h, decide_eq_true hk, Bool.true_and, Bool.true_and]
    congr 1
    omega
  · rw [BitVec.getLsbD_ofNat, testBit_and_0xFFFF, Nat.testBit_or, Nat.testBit_shiftRight, Nat.testBit_shiftLeft, h, h,
      decide_eq_true hk, Bool.true_and, Bool.true_and]
    by_cases hks : 16 - m % 16 ≤ k
    · have hlow : ¬ m % 16 + k < 16 := by omega
      have hhigh : k - (16 - m % 16) < 16 := by omega
      rw [decide_eq_false hlow, decide_eq_true hks, decide_eq_true hhigh, Bool.false_and, Bool.false_or,
        Bool.true_and, Bool.true_and]
      congr 1
      omega
    · have hlow : m % 16 + k < 16 := by omega
      rw [decide_eq_true hlow, decide_eq_false hks, Bool.true_and, Bool.false_and, Bool.or_false]
      congr 1
      omega

end Limbs

/-- A value is its four limbs, bit by bit. -/
theorem eq_limbs_of_getLsbD {v : Int64Value} {limb : Int → Limb}
    (h : ∀ (i : Int) (k : Nat), 0 ≤ i → i ≤ 3 → k < 16 → v.bitAt (16 * (3 - i) + k) = (limb i).getLsbD k) :
    v = ⟨limb 0, limb 1, limb 2, limb 3⟩ := by
  have hlimb (i : Int) (h0 : 0 ≤ i) (h3 : i ≤ 3) : v.limbAt i = (limb i).toNat := by
    apply Nat.eq_of_testBit_eq
    intro k
    rw [limbAt_carriesBits, BitVec.testBit_toNat]
    by_cases hk : k < 16
    · rw [decide_eq_true hk, Bool.true_and, h i k h0 h3 hk]
    · rw [decide_eq_false hk, Bool.false_and, BitVec.getLsbD_of_ge _ _ (Nat.le_of_not_lt hk)]
  exact Int64Value.ext_toNat (hlimb 0 (by decide) (by decide)) (hlimb 1 (by decide) (by decide))
    (hlimb 2 (by decide) (by decide)) (hlimb 3 (by decide) (by decide))

/-! ### The word-level operations move bits -/

theorem bitMod_rotlValue (a : Int64Value) (n i : Int) : (rotlValue a n).bitMod i = a.bitMod (i - n) := by
  obtain ⟨k, hk⟩ : ∃ k : Nat, i % 64 = k := Int.eq_ofNat_of_zero_le (by omega)
  have hlt : k < 64 := by omega
  have hr : (rotateAmount n : Int) = n % 64 := by unfold rotateAmount Config.rotateModulus; omega
  rw [Int64Value.bitMod, hk, Int64Value.bitAt_natCast, val_rotlValue, Nat.testBit_or, Nat.testBit_mod_two_pow,
    Nat.testBit_shiftLeft, Nat.testBit_shiftRight, decide_eq_true hlt, Bool.true_and, Int64Value.bitMod]
  by_cases hkr : rotateAmount n ≤ k
  · have hindex : (i - n) % 64 = (k - rotateAmount n : Nat) := by omega
    have hout : a.val.testBit (64 - rotateAmount n + k) = false := a.testBit_val_of_le (by omega)
    rw [hindex, Int64Value.bitAt_natCast, decide_eq_true hkr, Bool.true_and, hout, Bool.or_false]
  · have := rotateAmount_lt n
    have hindex : (i - n) % 64 = (64 - rotateAmount n + k : Nat) := by omega
    rw [hindex, Int64Value.bitAt_natCast, decide_eq_false hkr, Bool.false_and, Bool.false_or]

theorem bitMod_rotrValue (a : Int64Value) (n i : Int) : (rotrValue a n).bitMod i = a.bitMod (i + n) := by
  obtain ⟨k, hk⟩ : ∃ k : Nat, i % 64 = k := Int.eq_ofNat_of_zero_le (by omega)
  have hlt : k < 64 := by omega
  have hr : (rotateAmount n : Int) = n % 64 := by unfold rotateAmount Config.rotateModulus; omega
  have := rotateAmount_lt n
  rw [Int64Value.bitMod, hk, Int64Value.bitAt_natCast, val_rotrValue, Nat.testBit_or, Nat.testBit_mod_two_pow,
    Nat.testBit_shiftLeft, Nat.testBit_shiftRight, decide_eq_true hlt, Bool.true_and, Int64Value.bitMod]
  by_cases hkr : 64 - rotateAmount n ≤ k
  · have hindex : (i + n) % 64 = (k - (64 - rotateAmount n) : Nat) := by omega
    have hout : a.val.testBit (rotateAmount n + k) = false := a.testBit_val_of_le (by omega)
    rw [hindex, Int64Value.bitAt_natCast, decide_eq_true hkr, Bool.true_and, hout, Bool.false_or]
  · have hindex : (i + n) % 64 = (rotateAmount n + k : Nat) := by omega
    rw [hindex, Int64Value.bitAt_natCast, decide_eq_false hkr, Bool.false_and, Bool.or_false]

theorem bitAt_shiftLeft (a : Int64Value) (m : Nat) {k : Nat} (hk : k < 64) :
    (Int64Value.limbs ((a.val <<< m) % 2 ^ 64)).bitAt k = a.bitAt (k - m) := by
  rw [Int64Value.bitAt_natCast, val_limbs_shiftLeft, Nat.testBit_mod_two_pow, Nat.testBit_shiftLeft,
    decide_eq_true hk, Bool.true_and]
  by_cases hkm : m ≤ k
  · rw [decide_eq_true hkm, Bool.true_and, ← Int.ofNat_sub hkm, Int64Value.bitAt_natCast]
  · rw [decide_eq_false hkm, Bool.false_and, a.bitAt_of_neg (by omega)]

theorem bitAt_shiftRight (a : Int64Value) (m k : Nat) :
    (Int64Value.limbs (a.val >>> m)).bitAt k = a.bitAt (k + m) := by
  rw [Int64Value.bitAt_natCast, val_limbs_shiftRight, Nat.testBit_shiftRight, Nat.add_comm, ← Int.natCast_add,
    Int64Value.bitAt_natCast]

/-! ### The limb level is the word level -/

theorem rotlValue_eq_rotlLimbs (a : Int64Value) (m : Nat) : rotlValue a m = rotlLimbs a m := by
  refine eq_limbs_of_getLsbD (limb := leftLimb a.limbMod m) fun i k h0 h3 hk => ?_
  rw [getLsbD_leftLimb (limbMod_carriesBits a) m i hk, ← bitMod_rotlValue,
    Int64Value.bitMod_of_range _ (by omega) (by omega)]

theorem rotrValue_eq_rotrLimbs (a : Int64Value) (m : Nat) : rotrValue a m = rotrLimbs a m := by
  refine eq_limbs_of_getLsbD (limb := rightLimb a.limbMod m) fun i k h0 h3 hk => ?_
  rw [getLsbD_rightLimb (limbMod_carriesBits a) m i hk, ← bitMod_rotrValue,
    Int64Value.bitMod_of_range _ (by omega) (by omega)]

theorem limbs_shiftLeft_eq_shlLimbs (a : Int64Value) (m : Nat) :
    .limbs ((a.val <<< m) % 2 ^ 64) = shlLimbs a m := by
  refine eq_limbs_of_getLsbD (limb := leftLimb a.limbAt m) fun i k h0 h3 hk => ?_
  obtain ⟨j, hj⟩ : ∃ j : Nat, 16 * (3 - i) + (k : Int) = j := Int.eq_ofNat_of_zero_le (by omega)
  rw [getLsbD_leftLimb (limbAt_carriesBits a) m i hk, hj, bitAt_shiftLeft a m (by omega)]

theorem limbs_shiftRight_eq_shrLimbs (a : Int64Value) (m : Nat) : .limbs (a.val >>> m) = shrLimbs a m := by
  refine eq_limbs_of_getLsbD (limb := rightLimb a.limbAt m) fun i k h0 h3 hk => ?_
  obtain ⟨j, hj⟩ : ∃ j : Nat, 16 * (3 - i) + (k : Int) = j := Int.eq_ofNat_of_zero_le (by omega)
  rw [getLsbD_rightLimb (limbAt_carriesBits a) m i hk, hj, bitAt_shiftRight]

/-- Settles O28: the limb-level shifter and the word-level operation move the bits by the same number of places. -/
theorem limbLevelShifterEqualsTheWordLevel : Obligations.LimbLevelShifterEqualsTheWordLevel := by
  intro a m s hm
  refine ⟨?_, ?_, ?_, ?_⟩
  · rw [exec_rotl, rotlValue_eq_rotlLimbs]
  · rw [exec_rotr, rotrValue_eq_rotrLimbs]
  · rw [exec_shl, shlResponse_of_range (by omega) (by omega), Int.toNat_natCast, limbs_shiftLeft_eq_shlLimbs]
  · rw [exec_shr, shrResponse_of_range (by omega) (by omega), Int.toNat_natCast, limbs_shiftRight_eq_shrLimbs]

/-! ### The rotation laws -/

theorem rotlValue_rotlValue (a : Int64Value) (m n : Int) : rotlValue (rotlValue a m) n = rotlValue a (m + n) := by
  refine Int64Value.eq_of_bitMod_eq fun i => ?_
  rw [bitMod_rotlValue, bitMod_rotlValue, bitMod_rotlValue, Int.sub_sub, Int.add_comm n m]

theorem rotlValue_rotrValue (a : Int64Value) (n : Int) : rotlValue (rotrValue a n) n = a := by
  refine Int64Value.eq_of_bitMod_eq fun i => ?_
  rw [bitMod_rotlValue, bitMod_rotrValue, Int.sub_add_cancel]

theorem rotrValue_rotlValue (a : Int64Value) (n : Int) : rotrValue (rotlValue a n) n = a := by
  refine Int64Value.eq_of_bitMod_eq fun i => ?_
  rw [bitMod_rotrValue, bitMod_rotlValue, Int.add_sub_cancel]

theorem rotrValue_eq_rotlValue (a : Int64Value) {m n : Int} (h : (m + n) % 64 = 0) : rotrValue a n = rotlValue a m := by
  refine Int64Value.eq_of_bitMod_eq fun i => ?_
  rw [bitMod_rotrValue, bitMod_rotlValue]
  exact a.bitMod_congr (by omega)

/-- Whole limbs: the limb-level formula has no bits to carry between neighbours. -/
theorem rotlValue_whole_limbs (a : Int64Value) : rotlValue a 16 = ⟨a.limb1, a.limb2, a.limb3, a.limb0⟩ ∧
    rotlValue a 32 = ⟨a.limb2, a.limb3, a.limb0, a.limb1⟩ ∧ rotlValue a 48 = ⟨a.limb3, a.limb0, a.limb1, a.limb2⟩ := by
  have hlimbs (m : Nat) : rotlValue a m = rotlLimbs a m := rotlValue_eq_rotlLimbs a m
  refine ⟨(hlimbs 16).trans ?_, (hlimbs 32).trans ?_, (hlimbs 48).trans ?_⟩
  all_goals simp [rotlLimbs, leftLimb, Int64Value.limbMod, Int64Value.limbAt]

/-- Settles O29: rotations move the bits around modulo 64 (`bitMod_rotlValue`, `bitMod_rotrValue`). -/
theorem rotationLaws : Obligations.RotationLaws :=
  ⟨fun a n => ⟨rotlValue_rotrValue a n, rotrValue_rotlValue a n⟩,
    fun a => ⟨rotlValue_of_amount_zero rfl a, rotlValue_of_amount_zero rfl a, rotrValue_of_amount_zero rfl a,
      rotrValue_of_amount_zero rfl a⟩,
    rotlValue_whole_limbs, rotlValue_rotlValue, fun a _ _ => rotrValue_eq_rotlValue a⟩

end Machine

end Sys2Proof
end
